-- ==== Sys2Proof/Word.lean ====
section
/-! DEFINITION. The bit patterns of the int128_win CORE by their widths (00_scope.md rule R5, 10_state.md rules R21 to R23). -/

namespace Sys2Proof

/-- One byte of a hex buffer (20_memory.md rule R60). -/
abbrev Byte := BitVec 8

/-- One 64-bit half of a 128-bit value (00_scope.md rule R11, "Limb"). -/
abbrev Limb := BitVec 64

/-- A 128-bit pattern; the command alone decides whether it is read unsigned or signed (10_state.md rules R38, R39). -/
abbrev Value := BitVec 128

/-- The 32-bit shift amount `AMT` (30_encoding.md rule R85). -/
abbrev Amount := BitVec 32

/-- The 16-bit command word `CMD` (30_encoding.md rule R80). -/
abbrev CmdWord := BitVec 16

/-- A 35-byte buffer as the 280 bits of its port (20_memory.md rule R64). -/
abbrev HexPort := BitVec 280

/-- 35 bytes as a string, byte 0 the first character (44_hex_codec.md rule R190). Transient only: no state holds one. -/
abbrev HexString := Fin 35 → Byte

end Sys2Proof
end

