-- ==== Sys2Proof/Config.lean ====
section
/-! DEFINITION. The fixed parameters of the block (00_scope.md rule R5: "No parameter is left open to the model") and the free
values that stand for a primitive outside the domain the spec gives it (log entry 6). -/

namespace Sys2Proof.Config

/-- Bytes of each hex buffer: 34 characters and a terminator (00_scope.md rule R5, 20_memory.md rule R60). -/
abbrev hexBytes : Nat := 35

/-- `LAT_MAX`: no accepted command takes more edges than this (70_reset_and_hazards.md rule R278). -/
abbrev latMax : Nat := 129

/-- What a buffer byte that is not listed reads as: the reset contents of both buffers (10_state.md rule R23; log entry 4). -/
abbrev unlistedByte : Byte := 0

/-- Free value: `lastset` of zero, which 43_shift_bitlen.md rule R173 does not define and no rule applies. -/
opaque lastsetOfZero : Nat

/-- Free value: `shl128` by more than 127, which 43_shift_bitlen.md rule R170 does not define and no rule applies. -/
opaque shlOutOfDomain : Value → Nat → Value

/-- Free value: `shr128` by more than 127, which 43_shift_bitlen.md rule R171 does not define and no rule applies. -/
opaque shrOutOfDomain : Value → Nat → Value

/-- Free value: the nibble of a byte that is no hex digit, which 44_hex_codec.md rule R191 does not define; `hexdec` is never
applied to such a string (rule R195). -/
opaque nibbleOfNonDigit : Byte → BitVec 4

end Sys2Proof.Config
end

