-- ==== Sys2Proof/Machine/State.lean ====
section
/-! DEFINITION. The state of the block, exactly the registers of 10_state.md rule R23, beside it what the input pins will carry at the coming
edges (log entry 1), and the reset state (70_reset_and_hazards.md rule R270). -/

namespace Sys2Proof.Machine

/-- A 35-byte space (20_memory.md rule R60) as its listed bytes: index and byte, indices strictly rising, no listed byte equal to what an
unlisted index reads as (log entry 4). -/
abbrev Memory := List Host.Cell

/-- Every byte 0x00: nothing listed (10_state.md rule R23). -/
def Memory.blank : Memory := []

/-- The status a command completes with (60_exceptions.md rule R241). Codes 5 and 6 have no name: they are never written. -/
inductive Status where
  | ok
  | errNull
  | errFormat
  | errRange
  | errZero
  | errIllegal
  deriving DecidableEq, Repr

/-- What the input pins carry at one rising edge of `clk` (10_state.md rules R20, R21). -/
structure Pins where
  /-- `rst`, synchronous and active high. -/
  rst : Bool
  /-- `req_valid`: the host offers a command. -/
  reqValid : Bool
  /-- `req_cmd`, the command word. -/
  reqCmd : CmdWord
  /-- `req_a`, operand A. -/
  reqA : Value
  /-- `req_b`, operand B. -/
  reqB : Value
  /-- `req_amt`, the shift amount. -/
  reqAmt : Amount
  /-- `req_hin`, the hex input window; byte `i` is `req_hin[8i+7:8i]`. -/
  reqHin : HexPort
  deriving DecidableEq, Repr

/-- The pins when the host neither resets nor offers. -/
def Pins.idle : Pins := ⟨false, false, 0, 0, 0, 0, 0⟩

/-- Reasons the model stops. The block itself never stops (60_exceptions.md rule R240). -/
inductive Fault where
  /-- Raised by `memRead` and `memWrite` for a byte index outside 0 to 34, which 20_memory.md rule R61 says no rule forms; no command of
  the model raises it. Safe: the model would stop, and prove nothing (log entry 5). -/
  | hexIndexOutside (index : Nat)
  deriving DecidableEq, Repr

/-- Reasons the model has no meaning for a command. -/
inductive Refusal where
  /-- Raised by an arm of `exec` that has no meaning yet; no arm is left so. Safe: nothing can be proved of such a command. -/
  | notModelled (mnemonic : String)
  deriving DecidableEq, Repr

/-- The registers of 10_state.md rule R23: "Nothing else persists from one clock edge to the next." The field `inputs` alone is the
model's own. -/
structure State where
  /-- The pins at the coming edges, oldest first; when the list is used up the pins are idle (log entry 1). -/
  inputs : List Pins
  /-- `BUSY` (rule R29): a command is in progress. -/
  busy : Bool
  /-- `DONE` (rule R30): the result registers hold the results of the most recently accepted command. -/
  done : Bool
  /-- `RES_STATUS` (rule R27). -/
  resStatus : BitVec 3
  /-- `RES_Q` (rule R24). -/
  resQ : Value
  /-- `RES_R` (rule R25). -/
  resR : Value
  /-- `RES_CMP` (rule R26), 2-bit two's complement. -/
  resCmp : BitVec 2
  /-- `RES_HEX` (rule R28), the byte space HOUT. -/
  resHex : Memory
  /-- `CMD_L` (rule R31). -/
  cmdL : CmdWord
  /-- `A_L` (rule R31). -/
  aL : Value
  /-- `B_L` (rule R31). -/
  bL : Value
  /-- `AMT_L` (rule R31). -/
  amtL : Amount
  /-- `HIN_L` (rule R31), the byte space HIN. -/
  hinL : Memory
  /-- `DV_N` (rule R32): the partial remainder. -/
  dvN : Value
  /-- `DV_D` (rule R32): the shifted divisor. -/
  dvD : Value
  /-- `DV_Q` (rule R32): the quotient being built. -/
  dvQ : Value
  /-- `DV_CNT` (rule R32): the loop iterations still to run. -/
  dvCnt : BitVec 8
  /-- `DV_QNEG` (rule R32): negate the quotient at the end. -/
  dvQneg : Bool
  /-- `DV_RNEG` (rule R32): negate the remainder at the end. -/
  dvRneg : Bool
  /-- `DV_RUN` (rule R32): the loop is iterating. -/
  dvRun : Bool
  deriving DecidableEq, Repr

/-- The block after a reset edge (70_reset_and_hazards.md rule R270, the reset column of 10_state.md rule R23). -/
def State.reset : State where
  inputs := []
  busy := false
  done := false
  resStatus := 0
  resQ := 0
  resR := 0
  resCmp := 0
  resHex := Memory.blank
  cmdL := 0
  aL := 0
  bL := 0
  amtL := 0
  hinL := Memory.blank
  dvN := 0
  dvD := 0
  dvQ := 0
  dvCnt := 0
  dvQneg := false
  dvRneg := false
  dvRun := false

end Sys2Proof.Machine
end

