-- ==== Sys2Proof/Machine/Operands.lean ====
section
/-! DEFINITION. Operands: the limbs of a 128-bit pattern (00_scope.md rule R6) and the latched ports a command reads (30_encoding.md rule R85).
Each operand is taken whole, with no extension or scaling. -/

namespace Sys2Proof.Machine

/-- `lo(v) = v[63:0]` (00_scope.md rule R6). -/
def lo (v : Value) : Limb := v.extractLsb' 0 64

/-- `hi(v) = v[127:64]` (00_scope.md rule R6). -/
def hi (v : Value) : Limb := v.extractLsb' 64 64

/-- `(l, h)`, the value with `lo = l` and `hi = h`: `{h, l}` (00_scope.md rule R6). -/
def pair (l h : Limb) : Value := h ++ l

/-- `v[127]`: the pattern is negative when read signed (10_state.md rule R39). -/
def isNeg (v : Value) : Bool := v.getLsbD 127

/-- `MAX128` (00_scope.md rule R7). -/
def max128 : Value := BitVec.allOnes 128

/-- `A = A_L`. -/
def opA (s : State) : Value := s.aL

/-- `B = B_L`. -/
def opB (s : State) : Value := s.bL

/-- `AMT = AMT_L`. -/
def opAmt (s : State) : Amount := s.amtL

/-- `HIN = HIN_L`. -/
def opHin (s : State) : Memory := s.hinL

/-- `amt_ok(AMT)`: `0 <= s(AMT) <= 127` (43_shift_bitlen.md rule R174). -/
def amtOk (amt : Amount) : Bool := decide (0 ≤ amt.toInt) && decide (amt.toInt ≤ 127)

/-- The amount `s(AMT)` of a shift that `amt_ok` lets through. -/
def amount (amt : Amount) : Nat := amt.toInt.toNat

end Sys2Proof.Machine
end

