-- ==== Sys2Proof/Machine/HexCodec.lean ====
section
/-! DEFINITION. The hexadecimal encoder and decoder (44_hex_codec.md rules R190 to R195). Character codes are ASCII, the terminator 0x00 and the
high nibble first, as the spec chose (log entry 7). -/

namespace Sys2Proof.Machine

/-- `digit(d)`, lowercase only (44_hex_codec.md rule R191). -/
def digit (d : BitVec 4) : Byte :=
  if d.toNat ≤ 9 then 0x30 + d.setWidth 8 else 0x61 + (d.setWidth 8 - 10)

/-- `nibble(c)`, defined exactly on the 16 digit bytes (44_hex_codec.md rule R191). -/
def nibble (c : Byte) : Option (BitVec 4) :=
  if 0x30 ≤ c.toNat ∧ c.toNat ≤ 0x39 then some ((c - 0x30).setWidth 4)
  else if 0x61 ≤ c.toNat ∧ c.toNat ≤ 0x66 then some ((c - 0x61 + 10).setWidth 4)
  else none

/-- `hexenc(v)` (44_hex_codec.md rule R192): "0x", the 32 nibbles counted from the top, the terminator. -/
def hexenc (v : Value) : HexString := fun i =>
  if i.val = 0 then 0x30
  else if i.val = 1 then 0x78
  else if i.val = 34 then 0x00
  else digit (v.extractLsb' (124 - 4 * (i.val - 2)) 4)

/-- `hexvalid(s)` (44_hex_codec.md rule R194): the prefix, 32 digits, the terminator. -/
def hexvalid (s : HexString) : Bool :=
  (s 0 == 0x30) && (s 1 == 0x78)
    && (List.finRange 32).all (fun k => (nibble (s ⟨2 + k.val, by omega⟩)).isSome)
    && (s 34 == 0x00)

/-- The value of a digit byte; of any other byte, to which `hexdec` is never applied, a free value (log entry 6). -/
def digitValue (c : Byte) : Nat :=
  ((nibble c).getD (Config.nibbleOfNonDigit c)).toNat

/-- Sixteen digit bytes as a base-16 numeral, most significant first: the sum of 44_hex_codec.md rule R195. -/
def hexLimb (d : Fin 16 → Byte) : Limb :=
  BitVec.ofNat 64 ((List.finRange 16).map fun k => digitValue (d k) * 16 ^ (15 - k.val)).sum

/-- `hexdec(s)` (44_hex_codec.md rule R195): "first 16 digits into `high`", "next 16 into `low`". -/
def hexdec (s : HexString) : Value :=
  pair (hexLimb fun k => s ⟨18 + k.val, by omega⟩) (hexLimb fun k => s ⟨2 + k.val, by omega⟩)

end Sys2Proof.Machine
end

