-- ==== Sys2Proof/Syntax.lean ====
section
/-! DEFINITION. The 19 commands (30_encoding.md rule R87, spec/opcode_table.json) and the fields of a command word. -/

namespace Sys2Proof

/-- A command word taken apart into its four fields, the only format there is (30_encoding.md rule R80). -/
structure RawCommand where
  /-- `OP = CMD[7:0]` (rule R81). -/
  op : BitVec 8
  /-- `HIN_P = CMD[8]`: the FROMHEX input string exists (rule R82). -/
  hinP : Bool
  /-- `OUT_P = CMD[9]`: the hex output buffer or decode slot exists (rule R83). -/
  outP : Bool
  /-- `RSV = CMD[15:10]`, which must be 0 (rule R84). -/
  rsv : BitVec 6
  deriving DecidableEq, Repr

/-- One legal command. Every constructor carries both presence bits, which are free on every command (rule R87) though only TOHEX
and FROMHEX read them; the operands are not in the word but on the ports (rule R85). -/
inductive Instr where
  /-- 0x01 UCMP, unsigned compare (41_unsigned_arith.md rule R135). -/
  | ucmp (hinP outP : Bool)
  /-- 0x02 UADD, unsigned add (rule R136). -/
  | uadd (hinP outP : Bool)
  /-- 0x03 USUB, unsigned subtract (rule R137). -/
  | usub (hinP outP : Bool)
  /-- 0x04 UMUL, unsigned multiply (rule R138). -/
  | umul (hinP outP : Bool)
  /-- 0x05 UDIV, unsigned divide with remainder (42_unsigned_divide.md rule R153). -/
  | udiv (hinP outP : Bool)
  /-- 0x06 USHL, logical shift left (43_shift_bitlen.md rule R175). -/
  | ushl (hinP outP : Bool)
  /-- 0x07 USHR, logical shift right (rule R176). -/
  | ushr (hinP outP : Bool)
  /-- 0x08 CLZ64, leading zeros of the low limb (rule R177). -/
  | clz64 (hinP outP : Bool)
  /-- 0x09 LASTSET, position of the highest set bit (rule R178). -/
  | lastset (hinP outP : Bool)
  /-- 0x0A TOHEX, hex encode (44_hex_codec.md rule R193). -/
  | tohex (hinP outP : Bool)
  /-- 0x0B FROMHEX, hex decode (rule R196). -/
  | fromhex (hinP outP : Bool)
  /-- 0x10 SCREATE, signed value from a magnitude (45_signed.md rule R214). -/
  | screate (hinP outP : Bool)
  /-- 0x11 SCRNEG, negative signed value from its magnitude (rule R215). -/
  | scrneg (hinP outP : Bool)
  /-- 0x12 SUABS, unsigned absolute value (rule R216). -/
  | suabs (hinP outP : Bool)
  /-- 0x13 SCMP, signed compare (rule R217). -/
  | scmp (hinP outP : Bool)
  /-- 0x14 SADD, signed add (rule R218). -/
  | sadd (hinP outP : Bool)
  /-- 0x15 SSUB, signed subtract (rule R219). -/
  | ssub (hinP outP : Bool)
  /-- 0x16 SMUL, signed multiply (rule R220). -/
  | smul (hinP outP : Bool)
  /-- 0x17 SDIV, signed truncating divide with remainder (rule R221). -/
  | sdiv (hinP outP : Bool)
  deriving DecidableEq, Repr

end Sys2Proof
end

