-- ==== Sys2Proof/WellFormed.lean ====
section
/-! DEFINITION. Legality of a command word (30_encoding.md rule R88), as checks on its fields. An `Instr` carries nothing but the two presence
bits, which rule R87 leaves free, so every term of `Instr` is well-formed; what can be ill-formed is a word. -/

namespace Sys2Proof

/-- `RSV = 0` (30_encoding.md rule R84). -/
def RawCommand.rsvClear (c : RawCommand) : Bool :=
  c.rsv == 0

/-- `OP` is one of the 19 of rule R87; "The unassigned values of `OP` are 0x00, 0x0C to 0x0F, and 0x18 to 0xFF" (rule R88). -/
def RawCommand.opAssigned (c : RawCommand) : Bool :=
  (decide (0x01 ≤ c.op) && decide (c.op ≤ 0x0B)) || (decide (0x10 ≤ c.op) && decide (c.op ≤ 0x17))

/-- The word is legal (rule R88). The presence bits are not checked (rules R82, R83). -/
def RawCommand.wellFormed (c : RawCommand) : Bool :=
  c.rsvClear && c.opAssigned

end Sys2Proof
end

