-- ==== Sys2Proof/Decode.lean ====
section
/-! DEFINITION. Decoding a command word, total on all 65536 of them and rejecting by name, and after it the encoder (30_encoding.md
rules R80 to R90). "A decoder reads `CMD` alone" (rule R90). -/

namespace Sys2Proof

/-- Why a word names no command (30_encoding.md rule R88). -/
inductive DecodeError where
  /-- `RSV` is not 0: illegal whatever `OP` is (rule R84). -/
  | reservedBits (rsv : BitVec 6)
  /-- `OP` is in no row of rule R87. -/
  | unassignedOp (op : BitVec 8)
  deriving DecidableEq, Repr

/-- The fields of a command word (rule R80). -/
def rawOfWord (w : CmdWord) : RawCommand where
  op := w.extractLsb' 0 8
  hinP := w.getLsbD 8
  outP := w.getLsbD 9
  rsv := w.extractLsb' 10 6

/-- The opcode map of rule R87: `OP`, and the command it selects given the presence bits. -/
def opcodeTable : List (BitVec 8 × (Bool → Bool → Instr)) :=
  [(0x01, .ucmp), (0x02, .uadd), (0x03, .usub), (0x04, .umul), (0x05, .udiv), (0x06, .ushl), (0x07, .ushr),
   (0x08, .clz64), (0x09, .lastset), (0x0A, .tohex), (0x0B, .fromhex),
   (0x10, .screate), (0x11, .scrneg), (0x12, .suabs), (0x13, .scmp), (0x14, .sadd), (0x15, .ssub), (0x16, .smul),
   (0x17, .sdiv)]

/-- Rule R87 for the command, rule R88 for illegality; the reserved bits are checked first, which nothing can observe. -/
def decode (w : CmdWord) : Except DecodeError Instr :=
  let c := rawOfWord w
  if c.rsvClear then
    match opcodeTable.lookup c.op with
    | some command => .ok (command c.hinP c.outP)
    | none => .error (.unassignedOp c.op)
  else .error (.reservedBits c.rsv)

/-- The fields of each command's word, `OP` as in rule R87 and `RSV = 0`. -/
def rawOfInstr : Instr → RawCommand
  | .ucmp h o => ⟨0x01, h, o, 0⟩
  | .uadd h o => ⟨0x02, h, o, 0⟩
  | .usub h o => ⟨0x03, h, o, 0⟩
  | .umul h o => ⟨0x04, h, o, 0⟩
  | .udiv h o => ⟨0x05, h, o, 0⟩
  | .ushl h o => ⟨0x06, h, o, 0⟩
  | .ushr h o => ⟨0x07, h, o, 0⟩
  | .clz64 h o => ⟨0x08, h, o, 0⟩
  | .lastset h o => ⟨0x09, h, o, 0⟩
  | .tohex h o => ⟨0x0A, h, o, 0⟩
  | .fromhex h o => ⟨0x0B, h, o, 0⟩
  | .screate h o => ⟨0x10, h, o, 0⟩
  | .scrneg h o => ⟨0x11, h, o, 0⟩
  | .suabs h o => ⟨0x12, h, o, 0⟩
  | .scmp h o => ⟨0x13, h, o, 0⟩
  | .sadd h o => ⟨0x14, h, o, 0⟩
  | .ssub h o => ⟨0x15, h, o, 0⟩
  | .smul h o => ⟨0x16, h, o, 0⟩
  | .sdiv h o => ⟨0x17, h, o, 0⟩

/-- The word with the given fields (rule R80): `RSV` in bits 15 to 10, `OUT_P` bit 9, `HIN_P` bit 8, `OP` bits 7 to 0. -/
def wordOfRaw (c : RawCommand) : CmdWord :=
  c.rsv ++ BitVec.ofBool c.outP ++ BitVec.ofBool c.hinP ++ c.op

/-- The command word of a command (rule R91, last paragraph). -/
def encode (i : Instr) : CmdWord :=
  wordOfRaw (rawOfInstr i)

/-- The command word that spec/opcode_table.json numbers as `w` with `nbits` bits: one 16-bit word on the port `req_cmd`, bits above
`nbits` zero. The word is never stored as bytes, so it has no byte order. -/
def wordOfTable (nbits w : Nat) : CmdWord :=
  BitVec.ofNat 16 (w % 2 ^ nbits)

/-- What the decoder reads from a word numbered as spec/opcode_table.json numbers it. -/
def decodeTableWord (nbits w : Nat) : Option Instr :=
  (decode (wordOfTable nbits w)).toOption

end Sys2Proof
end

