-- ==== Sys2Proof/Machine/Flags.lean ====
section
/-! DEFINITION. The two status outputs a command computes: the code in `RES_STATUS` and the comparison in `RES_CMP`. The block has no other
flag (10_state.md rule R35). -/

namespace Sys2Proof.Machine

/-- The 3-bit code of a status (60_exceptions.md rule R241). -/
def statusCode : Status → BitVec 3
  | .ok => 0
  | .errNull => 1
  | .errFormat => 2
  | .errRange => 3
  | .errZero => 4
  | .errIllegal => 7

/-- `enc2` (40_execution.md rule R110, 10_state.md rule R26): -1, 0 and +1 as a 2-bit two's-complement integer. The pattern `10` is
never written. -/
def enc2 : Ordering → BitVec 2
  | .lt => 0b11
  | .eq => 0b00
  | .gt => 0b01

end Sys2Proof.Machine
end

