-- ==== Sys2Proof/Machine/Ops.lean ====
section
/-! DEFINITION. The named operations over the byte spaces and the registers: memory access (20_memory.md rules R61, R62), sampling the
pins, accepting a command (40_execution.md rule R117), the reset edge (70_reset_and_hazards.md rule R270), the result write (40_execution.md
rule R112), and `raise Status(code)` (rule R113), which is all the block has in place of taking an exception (60_exceptions.md rule R251:
there is no return from one). -/

namespace Sys2Proof.Machine

/-! ### The byte spaces -/

/-- The byte at an index: what is listed there, else what an unlisted index reads as. -/
def Memory.get : Memory → Nat → Byte
  | [], _ => Config.unlistedByte
  | (a, b) :: rest, i => if a = i then b else Memory.get rest i

/-- The byte at an index replaced, keeping the canonical form. -/
def Memory.set : Memory → Nat → Byte → Memory
  | [], i, b => if b = Config.unlistedByte then [] else [(i, b)]
  | (a, c) :: rest, i, b =>
    if i < a then
      if b = Config.unlistedByte then (a, c) :: rest else (i, b) :: (a, c) :: rest
    else if i = a then
      if b = Config.unlistedByte then rest else (i, b) :: rest
    else (a, c) :: Memory.set rest i b

/-- Consecutive bytes replaced, the first at index `i`. -/
def Memory.setFrom : Memory → Nat → List Byte → Memory
  | m, _, [] => m
  | m, i, b :: bs => Memory.setFrom (Memory.set m i b) (i + 1) bs

/-- The canonical form from index `least` on: indices strictly rising, inside the 35 bytes, no listed byte equal to the unlisted one. -/
def Memory.wfFrom : Nat → Memory → Bool
  | _, [] => true
  | least, (a, b) :: rest =>
    decide (least ≤ a) && decide (a < Config.hexBytes) && (b != Config.unlistedByte) && Memory.wfFrom (a + 1) rest

/-- The canonical form of a byte space. -/
def Memory.wf (m : Memory) : Bool := Memory.wfFrom 0 m

/-- `MemRead(space + i, n)` (20_memory.md rule R61): the bytes at `i, ..., i+n-1` in that order. An index outside 0 to 34 faults. -/
def memRead (m : Memory) (i n : Nat) : Except Fault (Fin n → Byte) :=
  if i + n ≤ Config.hexBytes then .ok fun k => Memory.get m (i + k)
  else .error (.hexIndexOutside (i + n - 1))

/-- `MemWrite(space + i, n, v)` (20_memory.md rule R62): byte `i+k` becomes byte `k` of `v`. An index outside 0 to 34 faults. -/
def memWrite (m : Memory) (i n : Nat) (v : Fin n → Byte) : Except Fault Memory :=
  if i + n ≤ Config.hexBytes then .ok (Memory.setFrom m i (List.ofFn v))
  else .error (.hexIndexOutside (i + n - 1))

/-- The 35 bytes on a port: byte `i` is bits `[8i+7:8i]` (20_memory.md rule R64). -/
def bytesOfPort (p : HexPort) : HexString :=
  fun i => p.extractLsb' (8 * i) 8

/-- The byte space that latches a port (10_state.md rule R31); all 35 bytes are sampled together (20_memory.md rule R67).
Irreducible so that no proof writes the 35 bytes out by unification. -/
@[irreducible] def memoryOfPort (p : HexPort) : Memory :=
  Memory.setFrom Memory.blank 0 (List.ofFn (bytesOfPort p))

/-- A byte space as the 280 bits of its port, byte `i` at bits `[8i+7:8i]` (20_memory.md rule R64). -/
def portOfMemory (m : Memory) : HexPort :=
  (List.range Config.hexBytes).foldr (fun i p => p ||| ((Memory.get m i).setWidth 280 <<< (8 * i))) 0

/-! ### The pins -/

/-- What the pins carry at the coming edge; idle when the list is used up (log entry 1). -/
def sample (s : State) : Pins :=
  s.inputs.headD Pins.idle

/-- The same registers with the coming edge's pins used. -/
def advanceInputs (s : State) : State :=
  { s with inputs := s.inputs.tail }

/-- The output pins (10_state.md rule R22). -/
structure OutPins where
  /-- `req_ready = NOT BUSY`. -/
  reqReady : Bool
  /-- `done`. -/
  done : Bool
  /-- `rsp_status`. -/
  rspStatus : BitVec 3
  /-- `rsp_q`. -/
  rspQ : Value
  /-- `rsp_r`. -/
  rspR : Value
  /-- `rsp_cmp`. -/
  rspCmp : BitVec 2
  /-- `rsp_hex`. -/
  rspHex : HexPort
  deriving DecidableEq, Repr

/-- Each output is driven from the register named beside it (10_state.md rule R22); reading one has no effect (20_memory.md rule R68). -/
def outputs (s : State) : OutPins where
  reqReady := !s.busy
  done := s.done
  rspStatus := s.resStatus
  rspQ := s.resQ
  rspR := s.resR
  rspCmp := s.resCmp
  rspHex := portOfMemory s.resHex

/-! ### Reset, accept, complete -/

/-- The reset edge: every register takes its reset value and a command in progress is abandoned (70_reset_and_hazards.md rules R270,
R271). What the host will drive is no register and stays. -/
def resetEdge (s : State) : State :=
  { State.reset with inputs := s.inputs }

/-- Accept (40_execution.md rule R117): the ports are latched, `BUSY` rises, `DONE` falls; the result registers keep their values. -/
def accept (p : Pins) (s : State) : State :=
  { s with
    cmdL := p.reqCmd, aL := p.reqA, bL := p.reqB, amtL := p.reqAmt, hinL := memoryOfPort p.reqHin
    busy := true, done := false }

/-- What a command computes: `(ST, Q, R, CMP, HOUT)` (00_scope.md rule R10). -/
structure Results where
  st : Status
  q : Value
  r : Value
  cmp : BitVec 2
  hout : Memory
  deriving DecidableEq, Repr

/-- The defaults of 40_execution.md rule R110: `(OK, 0, 0, 0b00, 35 bytes of 0x00)`. -/
def okDefaults : Results := ⟨.ok, 0, 0, 0b00, Memory.blank⟩

/-- What `raise Status(code)` returns: `(code, 0, 0, 0b00, 35 bytes of 0x00)` (40_execution.md rule R113). -/
def failed (st : Status) : Results := ⟨st, 0, 0, 0b00, Memory.blank⟩

/-- The result write (40_execution.md rule R112): all five result registers at one edge, then `BUSY <- 0` and `DONE <- 1` (rule R118). -/
def complete (r : Results) (s : State) : State :=
  { s with
    resStatus := statusCode r.st, resQ := r.q, resR := r.r, resCmp := r.cmp, resHex := r.hout
    busy := false, done := true }

/-- The command completes at this edge with these results. -/
def finish (r : Results) (s : State) : Host.Outcome State Fault Refusal :=
  .next (complete r s)

/-- The same for a command whose results come through a byte space: an index outside it is the fault it names. -/
def finishOrFault (r : Except Fault Results) (s : State) : Host.Outcome State Fault Refusal :=
  match r with
  | .ok r => finish r s
  | .error f => .fault f

/-- `raise Status(code)`: the command ends at once with that status and zeros everywhere else (40_execution.md rule R113). -/
def raiseStatus (st : Status) (s : State) : Host.Outcome State Fault Refusal :=
  finish (failed st) s

/-! ### Placing a command -/

/-- The coming edge's pins with `rst` low. -/
def withoutReset : List Pins → List Pins
  | [] => []
  | p :: rest => { p with rst := false } :: rest

/-- The state just after an edge that accepted the command word `cmd` with the operands already in the latches, so that the coming edge
runs it: `BUSY = 1`, `DONE = 0`, no loop iterating, no reset at the coming edge (log entry 2). -/
def placeCommand (cmd : CmdWord) (s : State) : State :=
  { s with inputs := withoutReset s.inputs, busy := true, done := false, cmdL := cmd, dvRun := false }

end Sys2Proof.Machine
end

