-- ==== Sys2Proof/Machine/Hex.lean ====
section
/-! DEFINITION. The hex commands TOHEX and FROMHEX (44_hex_codec.md rules R193, R196). -/

namespace Sys2Proof.Machine

/-- `if OUT_P == 0: raise Status(ERR_NULL)`, then `MemWrite(HOUT + 0, 35, hexenc(A))` (rule R193). -/
def tohexResult (outP : Bool) (a : Value) : Except Fault Results :=
  if outP then
    match memWrite Memory.blank 0 Config.hexBytes (hexenc a) with
    | .ok m => .ok { okDefaults with hout := m }
    | .error f => .error f
  else .ok (failed .errNull)

/-- `if HIN_P == 0 or OUT_P == 0: raise Status(ERR_NULL)`, then `s <- MemRead(HIN + 0, 35)`, then `if not hexvalid(s): raise
Status(ERR_FORMAT)`, then `Q <- hexdec(s)` (rule R196). -/
def fromhexResult (hinP outP : Bool) (hin : Memory) : Except Fault Results :=
  if hinP && outP then
    match memRead hin 0 Config.hexBytes with
    | .ok str => if hexvalid str then .ok { okDefaults with q := hexdec str } else .ok (failed .errFormat)
    | .error f => .error f
  else .ok (failed .errNull)

/-- TOHEX (44_hex_codec.md rule R193). -/
def execTohex (outP : Bool) (s : State) : Host.Outcome State Fault Refusal :=
  finishOrFault (tohexResult outP (opA s)) s

/-- FROMHEX (44_hex_codec.md rule R196). -/
def execFromhex (hinP outP : Bool) (s : State) : Host.Outcome State Fault Refusal :=
  finishOrFault (fromhexResult hinP outP (opHin s)) s

end Sys2Proof.Machine
end

