-- ==== Sys2Proof/Machine/Bits.lean ====
section
/-! DEFINITION. The barrel shifter, the leading-zero detector and the bit-position counter (43_shift_bitlen.md rules R170 to R173). -/

namespace Sys2Proof.Machine

/-- The logical left shift in its three branches, defined for `0 <= n <= 127` only (43_shift_bitlen.md rule R170; log entry 6). -/
def shl128 (v : Value) (n : Nat) : Value :=
  if n = 0 then v
  else if 127 < n then Config.shlOutOfDomain v n
  else if 64 ≤ n then pair 0 (lo v <<< (n - 64))
  else pair (lo v <<< n) ((hi v <<< n) ||| (lo v >>> (64 - n)))

/-- The logical right shift, zero-filling, defined for `0 <= n <= 127` only (43_shift_bitlen.md rule R171; log entry 6). -/
def shr128 (v : Value) (n : Nat) : Value :=
  if n = 0 then v
  else if 127 < n then Config.shrOutOfDomain v n
  else if 64 ≤ n then pair (hi v >>> (n - 64)) 0
  else pair ((lo v >>> n) ||| (hi v <<< (64 - n))) (hi v >>> n)

/-- The largest `k < bound` with `v[k] = 1`, if there is one. -/
def highestSetBelow {w : Nat} (v : BitVec w) : Nat → Option Nat
  | 0 => none
  | k + 1 => if v.getLsbD k then some k else highestSetBelow v k

/-- The count of leading zeros of a limb, 64 for zero (43_shift_bitlen.md rule R172). -/
def clz64 (x : Limb) : Nat :=
  match highestSetBelow x 64 with
  | some k => 63 - k
  | none => 64

/-- The position of the highest set bit of a nonzero value (43_shift_bitlen.md rule R173); at zero, where it is not defined and no rule
applies it, a free value (log entry 6). -/
def lastset (v : Value) : Nat :=
  match highestSetBelow v 128 with
  | some k => k
  | none => Config.lastsetOfZero

end Sys2Proof.Machine
end

