-- ==== Sys2Proof/Machine/Shift.lean ====
section
/-! DEFINITION. The shifts and bit-length queries USHL, USHR, CLZ64 and LASTSET (43_shift_bitlen.md rules R175 to R178). -/

namespace Sys2Proof.Machine

/-- `if not amt_ok(AMT): raise Status(ERR_RANGE)`, then `Q <- shl128(A, s(AMT))` (rule R175). -/
def ushlResult (a : Value) (amt : Amount) : Results :=
  if amtOk amt then { okDefaults with q := shl128 a (amount amt) } else failed .errRange

/-- `if not amt_ok(AMT): raise Status(ERR_RANGE)`, then `Q <- shr128(A, s(AMT))` (rule R176). -/
def ushrResult (a : Value) (amt : Amount) : Results :=
  if amtOk amt then { okDefaults with q := shr128 a (amount amt) } else failed .errRange

/-- `Q <- zext_128(clz64(A[63:0]))` (rule R177). -/
def clz64Result (a : Value) : Results := { okDefaults with q := BitVec.ofNat 128 (clz64 (lo a)) }

/-- `if A == 0: raise Status(ERR_ZERO)`, then `Q <- zext_128(lastset(A))` (rule R178). -/
def lastsetResult (a : Value) : Results :=
  if a = 0 then failed .errZero else { okDefaults with q := BitVec.ofNat 128 (lastset a) }

/-- USHL (43_shift_bitlen.md rule R175). -/
def execUshl (s : State) : Host.Outcome State Fault Refusal :=
  finish (ushlResult (opA s) (opAmt s)) s

/-- USHR (43_shift_bitlen.md rule R176). -/
def execUshr (s : State) : Host.Outcome State Fault Refusal :=
  finish (ushrResult (opA s) (opAmt s)) s

/-- CLZ64 (43_shift_bitlen.md rule R177). -/
def execClz64 (s : State) : Host.Outcome State Fault Refusal :=
  finish (clz64Result (opA s)) s

/-- LASTSET (43_shift_bitlen.md rule R178). -/
def execLastset (s : State) : Host.Outcome State Fault Refusal :=
  finish (lastsetResult (opA s)) s

end Sys2Proof.Machine
end

