-- ==== Sys2Proof/Machine/Arith.lean ====
section
/-! DEFINITION. The adder, subtracter, multiplier and comparators, limb by limb as the spec gives them (41_unsigned_arith.md rules R130 to
R134, 45_signed.md rules R210 to R212). -/

namespace Sys2Proof.Machine

/-- The 128-bit adder with carry propagation (41_unsigned_arith.md rule R130). -/
def add128 (a b : Value) : Value :=
  let l := lo a + lo b
  let carry : Limb := if l.toNat < (lo a).toNat then 1 else 0
  pair l (hi a + hi b + carry)

/-- The 128-bit subtracter with borrow (41_unsigned_arith.md rule R131). -/
def sub128 (a b : Value) : Value :=
  let l := lo a - lo b
  let borrow : Limb := if l.toNat > (lo a).toNat then 1 else 0
  pair l (hi a - hi b - borrow)

/-- The 64×64→128 multiplier: the exact product (41_unsigned_arith.md rule R132; how it is built is free, log entry 11). -/
def mul64x64 (x y : Limb) : Value :=
  BitVec.ofNat 128 (x.toNat * y.toNat)

/-- The truncated 128-bit product (41_unsigned_arith.md rule R133). -/
def mul128 (a b : Value) : Value :=
  let p := mul64x64 (lo a) (lo b)
  pair (lo p) (lo a * hi b + hi a * lo b + hi p)

/-- The unsigned comparator, high limb first (41_unsigned_arith.md rule R134); -1, 0, +1 are `lt`, `eq`, `gt` (log entry 8). -/
def ucmp (a b : Value) : Ordering :=
  if (hi a).toNat < (hi b).toNat then .lt
  else if (hi a).toNat > (hi b).toNat then .gt
  else if (lo a).toNat < (lo b).toNat then .lt
  else if (lo a).toNat > (lo b).toNat then .gt
  else .eq

/-- Two's-complement negation in the unsigned domain (45_signed.md rule R210). -/
def neg128 (m : Value) : Value := add128 (~~~m) 1

/-- The unsigned absolute value (45_signed.md rule R211). -/
def uabs (v : Value) : Value := if isNeg v then neg128 v else v

/-- The signed comparator: high limbs signed, low limbs unsigned (45_signed.md rule R212). -/
def scmp (a b : Value) : Ordering :=
  if (hi a).toInt < (hi b).toInt then .lt
  else if (hi a).toInt > (hi b).toInt then .gt
  else if (lo a).toNat < (lo b).toNat then .lt
  else if (lo a).toNat > (lo b).toNat then .gt
  else .eq

end Sys2Proof.Machine
end

