-- ==== Sys2Proof/Machine/DivEngine.lean ====
section
/-! DEFINITION. Division: the function `udiv` and its sign wrapper `sdiv` (42_unsigned_divide.md rule R150, 45_signed.md rule R213), and the engine
that computes them one loop iteration per edge (42_unsigned_divide.md rule R154). The loop body is written once and used by both. -/

namespace Sys2Proof.Machine

/-- What one iteration of the loop works on: the partial remainder, the shifted divisor and the quotient being built. -/
structure DivLoop where
  n : Value
  dd : Value
  q : Value
  deriving DecidableEq, Repr

/-- One iteration (the loop body of 42_unsigned_divide.md rule R150, the iteration of rule R154). -/
def divBody (l : DivLoop) : DivLoop :=
  let q := shl128 l.q 1
  if ucmp l.n l.dd ≠ .lt then ⟨sub128 l.n l.dd, shr128 l.dd 1, q ||| 1⟩
  else ⟨l.n, shr128 l.dd 1, q⟩

/-- `count` iterations. -/
def divRun : Nat → DivLoop → DivLoop
  | 0, l => l
  | count + 1, l => divRun count (divBody l)

/-- Cases 1 to 3 of rule R150: the divisor is zero, greater than the dividend, or equal to it. -/
def divSpecial (n d : Value) : Bool :=
  decide (d = 0) || decide (ucmp d n = .gt) || decide (d = n)

/-- `shift` of case 4 (rule R150). -/
def divShift (n d : Value) : Nat := lastset n - lastset d

/-- The loop's start in case 4: the divisor left-aligned, the quotient 0 (rule R150). -/
def divStart (n d : Value) : DivLoop := ⟨n, shl128 d (divShift n d), 0⟩

/-- The unsigned division function, its special cases "checked in order" (42_unsigned_divide.md rule R150). -/
def udiv (n d : Value) : Value × Value :=
  if d = 0 then (0, 0)
  else if ucmp d n = .gt then (0, n)
  else if d = n then (1, 0)
  else
    let l := divRun (divShift n d + 1) (divStart n d)
    (l.q, l.n)

/-- The signs put back: quotient and remainder negated where asked (45_signed.md rule R213, `complete` of 42_unsigned_divide.md rule R154). -/
def divSigned (qr : Value × Value) (qneg rneg : Bool) : Value × Value :=
  (if qneg then neg128 qr.1 else qr.1, if rneg then neg128 qr.2 else qr.2)

/-- Truncating signed division (45_signed.md rule R213). -/
def sdiv (a b : Value) : Value × Value :=
  divSigned (udiv (uabs a) (uabs b)) (isNeg a ^^ isNeg b) (isNeg a)

/-- The results of a division: `ST = OK`, `CMP = 00`, `HOUT` zeros (rule R154). -/
def divResults (qr : Value × Value) : Results :=
  { okDefaults with q := qr.1, r := qr.2 }

/-- The setup edge in the general case: the engine's registers loaded (rule R154). -/
def divLoad (n0 d0 : Value) (qneg rneg : Bool) (s : State) : State :=
  { s with
    dvN := n0, dvD := (divStart n0 d0).dd, dvQ := 0
    dvCnt := BitVec.ofNat 8 (divShift n0 d0 + 1), dvQneg := qneg, dvRneg := rneg, dvRun := true }

/-- The setup edge `e0 + 1` (rule R154): cases 1 to 3 complete at once, else the engine is loaded. -/
def divSetup (n0 d0 : Value) (qneg rneg : Bool) (s : State) : State :=
  if divSpecial n0 d0 then complete (divResults (divSigned (udiv n0 d0) qneg rneg)) s
  else divLoad n0 d0 qneg rneg s

/-- The part of an iteration that every iteration does (rule R154): the divisor shifted, the count one lower. -/
def divCount (s : State) : State :=
  { s with dvD := shr128 s.dvD 1, dvCnt := s.dvCnt - 1 }

/-- An iteration that is not the last: quotient and partial remainder kept (rule R154). -/
def divKeep (l : DivLoop) (s : State) : State :=
  { s with dvQ := l.q, dvN := l.n }

/-- The end of the last iteration: `DV_RUN <- 0`, `DV_Q` and `DV_N` left as they were (rule R154; log entry 9). -/
def divStop (s : State) : State :=
  { s with dvRun := false }

/-- An iteration edge (rule R154). Every register is read with the value it held before the edge. -/
def divIterate (s : State) : State :=
  let l := divBody ⟨s.dvN, s.dvD, s.dvQ⟩
  if s.dvCnt = 1 then
    complete (divResults (divSigned (l.q, l.n) s.dvQneg s.dvRneg)) (divStop (divCount s))
  else divKeep l (divCount s)

/-- One edge of a division in progress: setup while the loop is not iterating, else an iteration (rule R154; log entry 13). -/
def divEdge (n0 d0 : Value) (qneg rneg : Bool) (s : State) : State :=
  if s.dvRun then divIterate s else divSetup n0 d0 qneg rneg s

end Sys2Proof.Machine
end

