-- ==== Sys2Proof/Machine/Signed.lean ====
section
/-! DEFINITION. The signed commands SCREATE, SCRNEG, SUABS, SCMP, SADD, SSUB, SMUL and SDIV (45_signed.md rules R214 to R221). -/

namespace Sys2Proof.Machine

/-- `Q <- A`, no bit changes (rule R214). -/
def screateResult (a : Value) : Results := { okDefaults with q := a }

/-- `Q <- neg128(A)` (rule R215). -/
def scrnegResult (a : Value) : Results := { okDefaults with q := neg128 a }

/-- `Q <- uabs(A)` (rule R216). -/
def suabsResult (a : Value) : Results := { okDefaults with q := uabs a }

/-- `CMP <- enc2(scmp(A, B))` (rule R217). -/
def scmpResult (a b : Value) : Results := { okDefaults with cmp := enc2 (scmp a b) }

/-- `Q <- add128(A, B)` (rule R218). -/
def saddResult (a b : Value) : Results := { okDefaults with q := add128 a b }

/-- `Q <- sub128(A, B)` (rule R219). -/
def ssubResult (a b : Value) : Results := { okDefaults with q := sub128 a b }

/-- `Q <- mul128(A, B)` (rule R220). -/
def smulResult (a b : Value) : Results := { okDefaults with q := mul128 a b }

/-- `(Q, R) <- sdiv(A, B)` (rule R221). -/
def sdivResult (a b : Value) : Results := divResults (sdiv a b)

/-- SCREATE (45_signed.md rule R214). -/
def execScreate (s : State) : Host.Outcome State Fault Refusal :=
  finish (screateResult (opA s)) s

/-- SCRNEG (45_signed.md rule R215). -/
def execScrneg (s : State) : Host.Outcome State Fault Refusal :=
  finish (scrnegResult (opA s)) s

/-- SUABS (45_signed.md rule R216). -/
def execSuabs (s : State) : Host.Outcome State Fault Refusal :=
  finish (suabsResult (opA s)) s

/-- SCMP (45_signed.md rule R217). -/
def execScmp (s : State) : Host.Outcome State Fault Refusal :=
  finish (scmpResult (opA s) (opB s)) s

/-- SADD (45_signed.md rule R218). -/
def execSadd (s : State) : Host.Outcome State Fault Refusal :=
  finish (saddResult (opA s) (opB s)) s

/-- SSUB (45_signed.md rule R219). -/
def execSsub (s : State) : Host.Outcome State Fault Refusal :=
  finish (ssubResult (opA s) (opB s)) s

/-- SMUL (45_signed.md rule R220). -/
def execSmul (s : State) : Host.Outcome State Fault Refusal :=
  finish (smulResult (opA s) (opB s)) s

/-- SDIV (45_signed.md rule R221) by the engine on the magnitudes: one edge of it (42_unsigned_divide.md rule R154). -/
def execSdiv (s : State) : Host.Outcome State Fault Refusal :=
  .next (divEdge (uabs (opA s)) (uabs (opB s)) (isNeg (opA s) ^^ isNeg (opB s)) (isNeg (opA s)) s)

end Sys2Proof.Machine
end

