-- ==== Sys2Proof/Machine/Unsigned.lean ====
section
/-! DEFINITION. The unsigned commands UCMP, UADD, USUB, UMUL and UDIV (41_unsigned_arith.md rules R135 to R138, 42_unsigned_divide.md rule R153).
A meaning is what the block does at one edge while the command is in progress. -/

namespace Sys2Proof.Machine

/-- `CMP <- enc2(ucmp(A, B))` (rule R135). -/
def ucmpResult (a b : Value) : Results := { okDefaults with cmp := enc2 (ucmp a b) }

/-- `Q <- add128(A, B)` (rule R136). -/
def uaddResult (a b : Value) : Results := { okDefaults with q := add128 a b }

/-- `Q <- sub128(A, B)` (rule R137). -/
def usubResult (a b : Value) : Results := { okDefaults with q := sub128 a b }

/-- `Q <- mul128(A, B)` (rule R138). -/
def umulResult (a b : Value) : Results := { okDefaults with q := mul128 a b }

/-- `(Q, R) <- udiv(A, B)` (rule R153); the remainder is always written (rule R157). -/
def udivResult (a b : Value) : Results := divResults (udiv a b)

/-- UCMP (41_unsigned_arith.md rule R135). -/
def execUcmp (s : State) : Host.Outcome State Fault Refusal :=
  finish (ucmpResult (opA s) (opB s)) s

/-- UADD (41_unsigned_arith.md rule R136). -/
def execUadd (s : State) : Host.Outcome State Fault Refusal :=
  finish (uaddResult (opA s) (opB s)) s

/-- USUB (41_unsigned_arith.md rule R137). -/
def execUsub (s : State) : Host.Outcome State Fault Refusal :=
  finish (usubResult (opA s) (opB s)) s

/-- UMUL (41_unsigned_arith.md rule R138). -/
def execUmul (s : State) : Host.Outcome State Fault Refusal :=
  finish (umulResult (opA s) (opB s)) s

/-- UDIV (42_unsigned_divide.md rule R153) by the engine: one edge of it (rule R154, `qn = rn = 0`). -/
def execUdiv (s : State) : Host.Outcome State Fault Refusal :=
  .next (divEdge (opA s) (opB s) false false s)

end Sys2Proof.Machine
end

