-- ==== Sys2Proof/Machine/Dispatch.lean ====
section
/-! DEFINITION. One arm per command: what the block does at one edge while that command is in progress. -/

namespace Sys2Proof.Machine

/-- The edge of a legal command in progress (40_execution.md rules R110, R118, 42_unsigned_divide.md rule R154). -/
def exec (i : Instr) (s : State) : Host.Outcome State Fault Refusal :=
  match i with
  | .ucmp _ _ => Sys2Proof.Machine.execUcmp s
  | .uadd _ _ => Sys2Proof.Machine.execUadd s
  | .usub _ _ => Sys2Proof.Machine.execUsub s
  | .umul _ _ => Sys2Proof.Machine.execUmul s
  | .udiv _ _ => Sys2Proof.Machine.execUdiv s
  | .ushl _ _ => Sys2Proof.Machine.execUshl s
  | .ushr _ _ => Sys2Proof.Machine.execUshr s
  | .clz64 _ _ => Sys2Proof.Machine.execClz64 s
  | .lastset _ _ => Sys2Proof.Machine.execLastset s
  | .tohex _ outP => Sys2Proof.Machine.execTohex outP s
  | .fromhex hinP outP => Sys2Proof.Machine.execFromhex hinP outP s
  | .screate _ _ => Sys2Proof.Machine.execScreate s
  | .scrneg _ _ => Sys2Proof.Machine.execScrneg s
  | .suabs _ _ => Sys2Proof.Machine.execSuabs s
  | .scmp _ _ => Sys2Proof.Machine.execScmp s
  | .sadd _ _ => Sys2Proof.Machine.execSadd s
  | .ssub _ _ => Sys2Proof.Machine.execSsub s
  | .smul _ _ => Sys2Proof.Machine.execSmul s
  | .sdiv _ _ => Sys2Proof.Machine.execSdiv s

end Sys2Proof.Machine
end

