-- ==== Sys2Proof/Machine/Edge.lean ====
section
/-! DEFINITION. One rising edge of `clk` (40_execution.md rule R116): reset, else accept, else advance the command in progress, else nothing. -/

namespace Sys2Proof.Machine

/-- The command in progress advances (40_execution.md rule R118, 42_unsigned_divide.md rule R154): the latched word is decoded and, if legal, that
command's edge is taken; an illegal word completes with `ERR_ILLEGAL` (30_encoding.md rule R88), a division's `OP` with `RSV != 0` too. -/
def runCommand (s : State) : Host.Outcome State Fault Refusal :=
  match decode s.cmdL with
  | .ok i => exec i s
  | .error _ => raiseStatus .errIllegal s

/-- One rising edge, with the pins it samples, in the priority of 40_execution.md rule R116. The sampled pins are used up. -/
def clockEdge (s : State) : Host.Outcome State Fault Refusal :=
  if (sample s).rst then .next (resetEdge (advanceInputs s))
  else if !s.busy && (sample s).reqValid then .next (accept (sample s) (advanceInputs s))
  else if s.busy then runCommand (advanceInputs s)
  else .next (advanceInputs s)

end Sys2Proof.Machine
end

