-- ==== Sys2Proof/Machine/Step.lean ====
section
/-! DEFINITION. The step: one rising edge of `clk`. The block fetches no instruction (10_state.md rule R34): a command word is in progress once an
accepting edge has latched it in `CMD_L`, and the next edge runs it. -/

namespace Sys2Proof.Machine

/-- One step is one rising edge (10_state.md rule R20: "All state changes at its rising edge"). -/
def step (s : State) : Host.Outcome State Fault Refusal :=
  clockEdge s

/-- `s` as an accepting edge leaves it for the command word that spec/opcode_table.json numbers as `w`, so that the very next step runs that
command on the operands in the latches (log entry 2). -/
def State.withFetchWord (s : State) (nbits w : Nat) : State :=
  placeCommand (wordOfTable nbits w) s

end Sys2Proof.Machine
end

