-- ==== Sys2Proof/Machine/Assembler.lean ====
section
/-! DEFINITION. What each assembler form puts on the request ports (30_encoding.md rule R91) and the pseudo-instructions (rule R92). The forms are
terms, not text: how a line of text is split into them is not modelled (log entry 12). -/

namespace Sys2Proof.Machine

/-- A 128-bit value operand: an integer literal or a limb pair `(l, h)` (rule R91). -/
inductive AsmValue where
  | int (n : Int)
  | limbs (l h : Limb)
  deriving DecidableEq, Repr

/-- The pattern a value operand assembles to: `trunc_128(n)` for `-2^127 <= n <= 2^128 - 1`, or `{h, l}` (rule R91). -/
def assembleValue : AsmValue → Option Value
  | .int n => if -2 ^ 127 ≤ n ∧ n ≤ 2 ^ 128 - 1 then some (BitVec.ofInt 128 n) else none
  | .limbs l h => some (pair l h)

/-- The shift amount `trunc_32(n)` for `-2^31 <= n <= 2^31 - 1` (rule R91). -/
def assembleAmount (n : Int) : Option Amount :=
  if -2 ^ 31 ≤ n ∧ n ≤ 2 ^ 31 - 1 then some (BitVec.ofInt 32 n) else none

/-- A string operand on `req_hin`: its first 35 bytes, 0x00 in the remaining ones (rule R91). -/
def assembleString (bytes : List Byte) : HexPort :=
  portOfMemory (Memory.setFrom Memory.blank 0 (bytes.take Config.hexBytes))

/-- A command offered on the request ports. -/
def request (i : Instr) (a b : Value) (amt : Amount) (hin : HexPort) : Pins :=
  ⟨false, true, encode i, a, b, amt, hin⟩

/-- The assembler forms of rule R91, one constructor per form. -/
inductive Asm where
  | ucmp (a b : AsmValue)
  | uadd (a b : AsmValue)
  | usub (a b : AsmValue)
  | umul (a b : AsmValue)
  | udiv (a b : AsmValue)
  | ushl (a : AsmValue) (n : Int)
  | ushr (a : AsmValue) (n : Int)
  | clz64 (a : AsmValue)
  | lastset (a : AsmValue)
  /-- `TOHEX a`. -/
  | tohex (a : AsmValue)
  /-- `TOHEX.NOBUF a`. -/
  | tohexNobuf (a : AsmValue)
  /-- `FROMHEX "s"`. -/
  | fromhex (bytes : List Byte)
  /-- `FROMHEX.NOIN`. -/
  | fromhexNoin
  /-- `FROMHEX.NOOUT "s"`. -/
  | fromhexNoout (bytes : List Byte)
  /-- `FROMHEX.NOIN.NOOUT`. -/
  | fromhexNoinNoout
  | screate (a : AsmValue)
  | scrneg (a : AsmValue)
  | suabs (a : AsmValue)
  | scmp (a b : AsmValue)
  | sadd (a b : AsmValue)
  | ssub (a b : AsmValue)
  | smul (a b : AsmValue)
  | sdiv (a b : AsmValue)
  deriving DecidableEq, Repr

/-- A form with one value operand, on A; every port the command does not read is 0 (rule R91). -/
def assembleOne (i : Instr) (a : AsmValue) : Option Pins :=
  (assembleValue a).map fun a => request i a 0 0 0

/-- A form with two value operands, on A then B (rule R91). -/
def assembleTwo (i : Instr) (a b : AsmValue) : Option Pins :=
  (assembleValue a).bind fun a => (assembleValue b).map fun b => request i a b 0 0

/-- A form with a value and an amount, on A then AMT (rule R91). -/
def assembleShift (i : Instr) (a : AsmValue) (n : Int) : Option Pins :=
  (assembleValue a).bind fun a => (assembleAmount n).map fun amt => request i a 0 amt 0

/-- The request each form makes, with the presence bits of rule R91; nothing for a literal out of its range. -/
def assemble : Asm → Option Pins
  | .ucmp a b => assembleTwo (.ucmp false false) a b
  | .uadd a b => assembleTwo (.uadd false false) a b
  | .usub a b => assembleTwo (.usub false false) a b
  | .umul a b => assembleTwo (.umul false false) a b
  | .udiv a b => assembleTwo (.udiv false false) a b
  | .ushl a n => assembleShift (.ushl false false) a n
  | .ushr a n => assembleShift (.ushr false false) a n
  | .clz64 a => assembleOne (.clz64 false false) a
  | .lastset a => assembleOne (.lastset false false) a
  | .tohex a => assembleOne (.tohex false true) a
  | .tohexNobuf a => assembleOne (.tohex false false) a
  | .fromhex bytes => some (request (.fromhex true true) 0 0 0 (assembleString bytes))
  | .fromhexNoin => some (request (.fromhex false true) 0 0 0 0)
  | .fromhexNoout bytes => some (request (.fromhex true false) 0 0 0 (assembleString bytes))
  | .fromhexNoinNoout => some (request (.fromhex false false) 0 0 0 0)
  | .screate a => assembleOne (.screate false false) a
  | .scrneg a => assembleOne (.scrneg false false) a
  | .suabs a => assembleOne (.suabs false false) a
  | .scmp a b => assembleTwo (.scmp false false) a b
  | .sadd a b => assembleTwo (.sadd false false) a b
  | .ssub a b => assembleTwo (.ssub false false) a b
  | .smul a b => assembleTwo (.smul false false) a b
  | .sdiv a b => assembleTwo (.sdiv false false) a b

/-- The pseudo-instructions of rule R92. -/
inductive Pseudo where
  | umov (a : AsmValue)
  | uinc (a : AsmValue)
  | udec (a : AsmValue)
  | uneg (a : AsmValue)
  | unot (a : AsmValue)
  | umod (a b : AsmValue)
  | sneg (x : AsmValue)
  | srem (x y : AsmValue)
  | sabs (x : AsmValue)
  | nopchk
  deriving DecidableEq, Repr

/-- "Each is one real command" (rule R92). -/
def expand : Pseudo → Asm
  | .umov a => .uadd a (.int 0)
  | .uinc a => .uadd a (.int 1)
  | .udec a => .usub a (.int 1)
  | .uneg a => .usub (.int 0) a
  | .unot a => .usub (.int (-1)) a
  | .umod a b => .udiv a b
  | .sneg x => .ssub (.int 0) x
  | .srem x y => .sdiv x y
  | .sabs x => .suabs x
  | .nopchk => .ucmp (.int 0) (.int 0)

end Sys2Proof.Machine
end

