-- ==== Sys2Proof/Machine/Command.lean ====
section
/-! DEFINITION. The command function `Exec` of 40_execution.md rule R110 and the latency of each command (70_reset_and_hazards.md rule R277):
what a command's completion writes and at which edge it comes. The machine does not run on these; claims relate it to them. -/

namespace Sys2Proof.Machine

/-- The arm of `Exec` for a legal command (40_execution.md rule R110). -/
def commandResult (i : Instr) (a b : Value) (amt : Amount) (hin : Memory) : Except Fault Results :=
  match i with
  | .ucmp _ _ => .ok (ucmpResult a b)
  | .uadd _ _ => .ok (uaddResult a b)
  | .usub _ _ => .ok (usubResult a b)
  | .umul _ _ => .ok (umulResult a b)
  | .udiv _ _ => .ok (udivResult a b)
  | .ushl _ _ => .ok (ushlResult a amt)
  | .ushr _ _ => .ok (ushrResult a amt)
  | .clz64 _ _ => .ok (clz64Result a)
  | .lastset _ _ => .ok (lastsetResult a)
  | .tohex _ outP => tohexResult outP a
  | .fromhex hinP outP => fromhexResult hinP outP hin
  | .screate _ _ => .ok (screateResult a)
  | .scrneg _ _ => .ok (scrnegResult a)
  | .suabs _ _ => .ok (suabsResult a)
  | .scmp _ _ => .ok (scmpResult a b)
  | .sadd _ _ => .ok (saddResult a b)
  | .ssub _ _ => .ok (ssubResult a b)
  | .smul _ _ => .ok (smulResult a b)
  | .sdiv _ _ => .ok (sdivResult a b)

/-- `Exec(CMD, A, B, AMT, HIN)`, a function of its arguments alone (40_execution.md rules R110, R111; 00_scope.md rule R10). -/
def commandFn (cmd : CmdWord) (a b : Value) (amt : Amount) (hin : Memory) : Except Fault Results :=
  match decode cmd with
  | .ok i => commandResult i a b amt hin
  | .error _ => .ok (failed .errIllegal)

/-- The operands a division gives the engine, as 42_unsigned_divide.md rule R154 sets them up: `n0`, `d0`, `qn` and `rn`. -/
def divOperands (i : Instr) (a b : Value) : Option (Value × Value × Bool × Bool) :=
  match i with
  | .udiv _ _ => some (a, b, false, false)
  | .sdiv _ _ => some (uabs a, uabs b, isNeg a ^^ isNeg b, isNeg a)
  | .ucmp _ _ | .uadd _ _ | .usub _ _ | .umul _ _ | .ushl _ _ | .ushr _ _ | .clz64 _ _ | .lastset _ _ => none
  | .tohex _ _ | .fromhex _ _ => none
  | .screate _ _ | .scrneg _ _ | .suabs _ _ | .scmp _ _ | .sadd _ _ | .ssub _ _ | .smul _ _ => none

/-- Edges from acceptance to completion of a division of these magnitudes (42_unsigned_divide.md rule R155). -/
def divLatency (n0 d0 : Value) : Nat :=
  if divSpecial n0 d0 then 1 else divShift n0 d0 + 2

/-- Edges from acceptance to completion of any command word: 1, but for a legal division (70_reset_and_hazards.md rule R277). -/
def latency (cmd : CmdWord) (a b : Value) : Nat :=
  match decode cmd with
  | .ok i =>
    match divOperands i a b with
    | some (n0, d0, _, _) => divLatency n0 d0
    | none => 1
  | .error _ => 1

end Sys2Proof.Machine
end

