-- ==== Sys2Proof/Safety.lean ====
section
/-! DEFINITION. The terms claims use: what a completion leaves, which words are illegal, a run free of resets, and the invariant that holds at reset and
that every step keeps. -/

namespace Sys2Proof.Machine

/-- `s` after a completing edge that wrote these five values (40_execution.md rules R112, R118); everything else is as in `s`. -/
def wrote (status : BitVec 3) (q r : Value) (cmp : BitVec 2) (hex : Memory) (s : State) : State :=
  { s with
    resStatus := status, resQ := q, resR := r, resCmp := cmp, resHex := hex
    busy := false, done := true }

/-- The five result registers. -/
def resultRegs (s : State) : BitVec 3 × Value × Value × BitVec 2 × Memory :=
  (s.resStatus, s.resQ, s.resR, s.resCmp, s.resHex)

/-- What the five result registers hold once these results are written (40_execution.md rule R112). -/
def regsOf (r : Results) : BitVec 3 × Value × Value × BitVec 2 × Memory :=
  (statusCode r.st, r.q, r.r, r.cmp, r.hout)

/-- The word is illegal, said of its bits as a number: `RSV != 0` or an unassigned `OP` (30_encoding.md rule R88). -/
abbrev illegalWord (w : CmdWord) : Prop :=
  w.toNat / 1024 ≠ 0 ∨ ¬ ((1 ≤ w.toNat % 256 ∧ w.toNat % 256 ≤ 11) ∨ (16 ≤ w.toNat % 256 ∧ w.toNat % 256 ≤ 23))

/-- No reset among the coming `k` edges. -/
abbrev noReset (k : Nat) (inputs : List Pins) : Prop :=
  ∀ p ∈ inputs.take k, p.rst = false

/-- `Exec` of the command offered on these pins (40_execution.md rule R110). -/
def execOf (p : Pins) : Except Fault Results :=
  commandFn p.reqCmd p.reqA p.reqB p.reqAmt (memoryOfPort p.reqHin)

/-- The division in progress: the latched word is a legal UDIV or SDIV with these engine operands. -/
def divisionLatched (s : State) (n0 d0 : Value) (qneg rneg : Bool) : Prop :=
  ∃ i, decode s.cmdL = .ok i ∧ divOperands i s.aL s.bL = some (n0, d0, qneg, rneg)

/-- While the loop iterates, the iterations still to run end in the quotient and remainder of the latched operands, with the latched signs, and
their number is 1 to 128 (10_state.md rule R32, 42_unsigned_divide.md rules R154, R156). -/
def engineOnCourse (s : State) : Prop :=
  ∃ n0 d0, divisionLatched s n0 d0 s.dvQneg s.dvRneg ∧ 1 ≤ s.dvCnt.toNat ∧ s.dvCnt.toNat ≤ 128 ∧
    udiv n0 d0 =
      ((divRun s.dvCnt.toNat ⟨s.dvN, s.dvD, s.dvQ⟩).q, (divRun s.dvCnt.toNat ⟨s.dvN, s.dvD, s.dvQ⟩).n)

/-- The invariant of the block. -/
structure Inv (s : State) : Prop where
  /-- `HIN_L` keeps the canonical form. -/
  hinWf : Memory.wf s.hinL = true
  /-- `RES_HEX` keeps the canonical form. -/
  hexWf : Memory.wf s.resHex = true
  /-- "Values 5 and 6 are reserved and never written" (10_state.md rule R27). -/
  statusNamed : s.resStatus ≠ 5 ∧ s.resStatus ≠ 6
  /-- "The pattern `10` is never written" (10_state.md rule R26). -/
  cmpNamed : s.resCmp ≠ 0b10
  /-- On any non-`OK` status the other result registers are all zero (60_exceptions.md rule R249). -/
  failedIsZero : s.resStatus ≠ 0 → s.resQ = 0 ∧ s.resR = 0 ∧ s.resCmp = 0 ∧ s.resHex = Memory.blank
  /-- `BUSY` and `DONE` are never both 1 (10_state.md rules R29, R30). -/
  notBusyAndDone : ¬ (s.busy = true ∧ s.done = true)
  /-- The loop iterates only while a command is in progress. -/
  runningIsBusy : s.dvRun = true → s.busy = true
  /-- Between loops the counter stands at 0 (42_unsigned_divide.md rule R154: it counts down to 0). -/
  stoppedAtZero : s.dvRun = false → s.dvCnt = 0
  /-- The loop computes the latched division. -/
  onCourse : s.dvRun = true → engineOnCourse s
  /-- "When `DONE = 1`, the result registers hold the results of the most recently accepted command" (10_state.md rule R30): those of `Exec` on the
  latches (40_execution.md rule R112). -/
  doneResults : s.done = true →
    ∃ r, commandFn s.cmdL s.aL s.bL s.amtL s.hinL = .ok r ∧ resultRegs s = regsOf r

end Sys2Proof.Machine
end

