-- ==== Sys2Proof/Certificates/Slice0/Obligations.lean ====
section
/-! DEFINITION. The statements for the provers. Each docstring names the rule of spec/ it formalises. -/

open Sys2Proof Sys2Proof.Machine

/-! ### Encoding -/

/-- 30_encoding.md rules R80, R87, R90: decoding an encoded command gives it back, and encoding what a word decodes to gives the word back. -/
def Obligations.DecodeAndEncodeAgree : Prop :=
  (∀ i, decode (encode i) = .ok i) ∧ ∀ w i, decode w = .ok i → encode i = w

/-- 30_encoding.md rules R81, R84, R87, R88: the legal words are exactly those with `RSV = 0` and an assigned `OP`, and a legal word selects its row by
`CMD & 0xFCFF`. -/
def Obligations.LegalWordsAreExactlyTheAssignedOnes : Prop :=
  (∀ w : CmdWord, (∃ i, decode w = .ok i) ↔ ¬ illegalWord w) ∧
    ∀ w i, decode w = .ok i → w &&& 0xFCFF = (rawOfInstr i).op.setWidth 16

/-- 30_encoding.md rules R87, R88, R91: a few words of the spec decode to the commands it says. -/
def Obligations.SpecWordsDecodeAsListed : Prop :=
  decode 0x0001 = .ok (.ucmp false false) ∧ decode 0x0301 = .ok (.ucmp true true) ∧
  decode 0x0005 = .ok (.udiv false false) ∧ decode 0x0007 = .ok (.ushr false false) ∧
  decode 0x020A = .ok (.tohex false true) ∧ decode 0x000A = .ok (.tohex false false) ∧
  decode 0x030B = .ok (.fromhex true true) ∧ decode 0x020B = .ok (.fromhex false true) ∧
  decode 0x010B = .ok (.fromhex true false) ∧ decode 0x0117 = .ok (.sdiv true false) ∧
  decode 0x0000 = .error (.unassignedOp 0x00) ∧ decode 0x000C = .error (.unassignedOp 0x0C) ∧
  decode 0x0018 = .error (.unassignedOp 0x18) ∧ decode 0x0405 = .error (.reservedBits 1)

/-- 30_encoding.md rule R91: the command word each assembler form of the hex commands puts on `req_cmd`. -/
def Obligations.AssemblerFormsGiveTheListedWords : Prop :=
  (assemble (.tohex (.int 5))).map (·.reqCmd) = some 0x020A ∧
  (assemble (.tohexNobuf (.int 5))).map (·.reqCmd) = some 0x000A ∧
  (assemble (.fromhex [0x30])).map (·.reqCmd) = some 0x030B ∧
  (assemble .fromhexNoin).map (·.reqCmd) = some 0x020B ∧
  (assemble (.fromhexNoout [0x30])).map (·.reqCmd) = some 0x010B ∧
  (assemble .fromhexNoinNoout).map (·.reqCmd) = some 0x000B ∧
  (assemble (.uadd (.int (-1)) (.limbs 1 0))).map (fun p => (p.reqCmd, p.reqA, p.reqB)) = some (0x0002, max128, 1)

/-! ### One edge -/

/-- 40_execution.md rules R110, R118, 42_unsigned_divide.md rule R154: while a command is in progress and no reset comes, a step is the decoded
command's edge on the registers, the pins of that edge used up (log entry 1). -/
def Obligations.StepRunsTheLatchedCommand : Prop :=
  ∀ (s : State) (i : Instr), (sample s).rst = false → s.busy = true → decode s.cmdL = .ok i →
    step s = exec i (advanceInputs s)

/-- 70_reset_and_hazards.md rules R270, R271, 40_execution.md rule R116: an edge with `rst = 1` puts every register at its reset value, whatever else the
pins and the registers hold, and the command in progress writes no result. -/
def Obligations.ResetEdgeClearsEveryRegister : Prop :=
  ∀ s : State, (sample s).rst = true →
    step s = .next
      { inputs := s.inputs.tail, busy := false, done := false
        resStatus := 0, resQ := 0, resR := 0, resCmp := 0, resHex := Memory.blank
        cmdL := 0, aL := 0, bL := 0, amtL := 0, hinL := Memory.blank
        dvN := 0, dvD := 0, dvQ := 0, dvCnt := 0, dvQneg := false, dvRneg := false, dvRun := false }

/-- 40_execution.md rule R117: an accepting edge latches the five ports, sets `BUSY`, clears `DONE` and changes no other register; byte `i` of `HIN_L` is
`req_hin[8i+7:8i]`. Illegal words are accepted too: nothing is asked of `req_cmd`. -/
def Obligations.AcceptLatchesThePorts : Prop :=
  (∀ (s : State) (p : Pins) (rest : List Pins),
    s.inputs = p :: rest → p.rst = false → s.busy = false → p.reqValid = true →
      step s = .next
        { s with
          inputs := rest, cmdL := p.reqCmd, aL := p.reqA, bL := p.reqB, amtL := p.reqAmt
          hinL := memoryOfPort p.reqHin, busy := true, done := false }) ∧
  ∀ (port : HexPort) (i : Fin 35), Memory.get (memoryOfPort port) i = port.extractLsb' (8 * i) 8

/-- 40_execution.md rule R116, last case: an edge with no reset, no command in progress and no offer changes no register. -/
def Obligations.IdleEdgeChangesNoRegister : Prop :=
  ∀ s : State, (sample s).rst = false → s.busy = false → (sample s).reqValid = false →
    step s = .next { s with inputs := s.inputs.tail }

/-- 40_execution.md rule R119: at an edge with `BUSY = 1` and no reset nothing is accepted, and what the request ports carry has no effect on anything. -/
def Obligations.OfferWhileBusyIsForgotten : Prop :=
  ∀ (s : State) (p q : Pins) (rest : List Pins), s.busy = true → p.rst = false → q.rst = false →
    step { s with inputs := p :: rest } = step { s with inputs := q :: rest } ∧
    ∀ t, step { s with inputs := p :: rest } = .next t →
      t.inputs = rest ∧ t.cmdL = s.cmdL ∧ t.aL = s.aL ∧ t.bL = s.bL ∧ t.amtL = s.amtL ∧ t.hinL = s.hinL

/-- 30_encoding.md rule R88: a word is illegal iff its `RSV` is not 0 or its `OP` is no command's; it is accepted like any other, and completes at the next
edge with `ERR_ILLEGAL` (7) and zeros in every other result register, also where its `OP` is that of a division. -/
def Obligations.IllegalWordCompletesWithErrIllegal : Prop :=
  (∀ w : CmdWord, illegalWord w ↔ w.extractLsb' 10 6 ≠ 0 ∨ ∀ i, w.extractLsb' 0 8 ≠ (rawOfInstr i).op) ∧
  (∀ (s : State) (p : Pins) (rest : List Pins), s.inputs = p :: rest → p.rst = false → s.busy = false → p.reqValid = true →
    illegalWord p.reqCmd → ∃ t, step s = .next t ∧ t.busy = true ∧ t.cmdL = p.reqCmd) ∧
  ∀ s : State, (sample s).rst = false → s.busy = true → illegalWord s.cmdL →
    step s = .next (wrote 7 0 0 0b00 Memory.blank (advanceInputs s))

/-- 40_execution.md rules R112, R118: a command in progress that is no legal UDIV or SDIV, an illegal word with such an `OP` among them, completes at the next
edge, if no reset comes, with the result write of `Exec` on its latches, and changes nothing else. -/
def Obligations.SingleEdgeCommandsCompleteAtTheNextEdge : Prop :=
  ∀ s : State, (sample s).rst = false → s.busy = true →
    (∀ h o, decode s.cmdL ≠ .ok (.udiv h o)) → (∀ h o, decode s.cmdL ≠ .ok (.sdiv h o)) →
      ∃ r, commandFn s.cmdL s.aL s.bL s.amtL s.hinL = .ok r ∧
        step s = .next (wrote (statusCode r.st) r.q r.r r.cmp r.hout (advanceInputs s))

/-- 60_exceptions.md rule R240: "No command, operand or input sequence makes the block trap, raise an interrupt, stop": every edge has a next state. -/
def Obligations.EveryEdgeHasANextState : Prop :=
  ∀ s : State, ∃ t, step s = .next t

/-- 70_reset_and_hazards.md rule R276: the result registers change only at a completing edge and at reset; acceptance does not touch them. -/
def Obligations.ResultsChangeOnlyAtCompletionOrReset : Prop :=
  ∀ s t : State, step s = .next t →
    resultRegs t = resultRegs s ∨ (sample s).rst = true ∨ (s.busy = true ∧ t.busy = false ∧ t.done = true)

/-- 10_state.md rule R31, 20_memory.md rule R60: no command writes a latch, a byte of HIN or what the host will drive; no command but a division writes a
register of the division engine. -/
def Obligations.CommandsLeaveTheLatchesAlone : Prop :=
  ∀ (i : Instr) (s t : State), exec i s = .next t →
    t.inputs = s.inputs ∧ t.cmdL = s.cmdL ∧ t.aL = s.aL ∧ t.bL = s.bL ∧ t.amtL = s.amtL ∧ t.hinL = s.hinL ∧
    (∀ k, Memory.get t.hinL k = Memory.get s.hinL k) ∧
    (divOperands i s.aL s.bL = none →
      t.dvN = s.dvN ∧ t.dvD = s.dvD ∧ t.dvQ = s.dvQ ∧ t.dvCnt = s.dvCnt ∧ t.dvQneg = s.dvQneg ∧
        t.dvRneg = s.dvRneg ∧ t.dvRun = s.dvRun)

/-- 10_state.md rule R22, 20_memory.md rules R64, R65: each output pin is its register; byte `i` of HOUT is `rsp_hex[8i+7:8i]`; a 128-bit port is
`high * 2^64 + low`. -/
def Obligations.OutputPinsShowTheRegisters : Prop :=
  (∀ s : State,
    (outputs s).reqReady = !s.busy ∧ (outputs s).done = s.done ∧ (outputs s).rspStatus = s.resStatus ∧
    (outputs s).rspQ = s.resQ ∧ (outputs s).rspR = s.resR ∧ (outputs s).rspCmp = s.resCmp ∧
    ∀ i : Fin 35, (outputs s).rspHex.extractLsb' (8 * i) 8 = Memory.get s.resHex i) ∧
  (∀ v : Value, v.toNat = (hi v).toNat * 2 ^ 64 + (lo v).toNat) ∧
  ∀ l h : Limb, (pair l h).toNat = h.toNat * 2 ^ 64 + l.toNat

/-! ### The invariant -/

/-- 70_reset_and_hazards.md rules R270, R273: the reset state has the invariant. -/
def Obligations.ResetStateHasTheInvariant : Prop :=
  Inv State.reset

/-- 10_state.md rules R26, R27, R29, R30, R32, 60_exceptions.md rule R249, 42_unsigned_divide.md rules R154, R156: every edge keeps the invariant, from every
state that has it and whatever the pins carry. The canonical form of the buffers is the model's (log entry 4), and so are the clauses about `DV_RUN` (log entry 13). -/
def Obligations.EveryEdgeKeepsTheInvariant : Prop :=
  ∀ s t : State, Inv s → step s = .next t → Inv t

/-- 40_execution.md rule R115, the spec's own derivation "[derived: from rule R110 and rule R112]": two runs from just after acceptance with equal latches, whatever
the result registers, the division registers and the pins of either hold, complete after the same number of edges with equal results, if no reset comes
before. That number is the spec's derivation too (42_unsigned_divide.md rule R155, "[derived: from rule R154]"). The premise `dvRun = false` holds at a first
edge by `Inv.runningIsBusy` and 40_execution.md rule R117; that `DV_RUN` alone chooses the setup is the model's (log entry 13), and so is the list of coming pins
(log entry 1). -/
def Obligations.ResultsDependOnTheLatchesAlone : Prop :=
  ∀ s s' : State, s.busy = true → s'.busy = true → s.dvRun = false → s'.dvRun = false →
    s.cmdL = s'.cmdL → s.aL = s'.aL → s.bL = s'.bL → s.amtL = s'.amtL → s.hinL = s'.hinL →
    noReset (latency s.cmdL s.aL s.bL) s.inputs → noReset (latency s.cmdL s.aL s.bL) s'.inputs →
      ∃ t t', Sys2Proof.core.run (latency s.cmdL s.aL s.bL) s = .next t ∧
        Sys2Proof.core.run (latency s.cmdL s.aL s.bL) s' = .next t' ∧
        t.done = true ∧ t'.done = true ∧ resultRegs t = resultRegs t'

/-! ### A command from its offer to its completion -/

/-- 40_execution.md rules R117, R118, R120, 42_unsigned_divide.md rules R155, R156, 70_reset_and_hazards.md rules R276, R277: a command accepted by an idle block
completes exactly `latency` edges later, if no reset comes before, with the five values of `Exec` on the ports as they were at the accepting edge; until then
`BUSY` is 1, `DONE` is 0 and the results are the old ones. The premise `dvRun = false` holds in every idle state by `Inv.runningIsBusy`. What the pins
carry at the coming edges is the list of log entry 1. Rules R120, R155 and R156 are marked "[derived: ...]" by the spec. -/
def Obligations.AcceptedCommandCompletesWithExec : Prop :=
  ∀ (s : State) (p : Pins) (rest : List Pins),
    s.inputs = p :: rest → s.busy = false → s.dvRun = false → p.rst = false → p.reqValid = true →
    noReset (latency p.reqCmd p.reqA p.reqB) rest →
      (∃ r t, execOf p = .ok r ∧ Sys2Proof.core.run (latency p.reqCmd p.reqA p.reqB + 1) s = .next t ∧
        t.busy = false ∧ t.done = true ∧ t.dvRun = false ∧ resultRegs t = regsOf r ∧
        t.inputs = rest.drop (latency p.reqCmd p.reqA p.reqB)) ∧
      ∀ k, 1 ≤ k → k ≤ latency p.reqCmd p.reqA p.reqB →
        ∃ u, Sys2Proof.core.run k s = .next u ∧ u.busy = true ∧ u.done = false ∧ resultRegs u = resultRegs s

/-- 70_reset_and_hazards.md rules R277, R278, 42_unsigned_divide.md rule R155: the latency table, with `lastset` as the base-2 logarithm, its bound of 129, and
the case that reaches it. The spec marks rule R155 "[derived: from rule R154]" and rule R278 as derived too. -/
def Obligations.LatencyTable : Prop :=
  (∀ w a b, illegalWord w → latency w a b = 1) ∧
  (∀ i a b, divOperands i a b = none → latency (encode i) a b = 1) ∧
  (∀ i a b n d qn rn, divOperands i a b = some (n, d, qn, rn) →
    latency (encode i) a b =
      if d.toNat = 0 ∨ n.toNat ≤ d.toNat then 1 else Nat.log2 n.toNat - Nat.log2 d.toNat + 2) ∧
  (∀ w a b, 1 ≤ latency w a b ∧ latency w a b ≤ 129) ∧
  latency 0x0005 max128 1 = 129

/-- 60_exceptions.md rules R241 to R246, 40_execution.md rule R113: each non-`OK` status of `Exec` has exactly its cause, said of the word's bits and the
operands, and a failed command returns its code and zeros. -/
def Obligations.EachStatusHasExactlyItsCause : Prop :=
  ∀ (w : CmdWord) (a b : Value) (amt : Amount) (hin : Memory) (r : Results), commandFn w a b amt hin = .ok r →
    (r.st = .errIllegal ↔ illegalWord w) ∧
    (r.st = .errNull ↔ ¬ illegalWord w ∧
      ((w.toNat % 256 = 0x0A ∧ w.getLsbD 9 = false) ∨
        (w.toNat % 256 = 0x0B ∧ (w.getLsbD 8 = false ∨ w.getLsbD 9 = false)))) ∧
    (r.st = .errFormat ↔ ¬ illegalWord w ∧ w.toNat % 256 = 0x0B ∧ w.getLsbD 8 = true ∧ w.getLsbD 9 = true ∧
      hexvalid (fun i => Memory.get hin i) = false) ∧
    (r.st = .errRange ↔ ¬ illegalWord w ∧ (w.toNat % 256 = 0x06 ∨ w.toNat % 256 = 0x07) ∧
      (amt.toInt < 0 ∨ 127 < amt.toInt)) ∧
    (r.st = .errZero ↔ ¬ illegalWord w ∧ w.toNat % 256 = 0x09 ∧ a = 0) ∧
    (r.st ≠ .ok → r = failed r.st) ∧
    statusCode .ok = 0 ∧ statusCode .errNull = 1 ∧ statusCode .errFormat = 2 ∧ statusCode .errRange = 3 ∧
    statusCode .errZero = 4 ∧ statusCode .errIllegal = 7

/-- 40_execution.md rule R114, 43_shift_bitlen.md rule R177: a command ignores every operand port and every presence bit its arm of rule R110 does not read. -/
def Obligations.UnreadPortsDoNotMatter : Prop :=
  ∀ (h o h' o' : Bool) (a a' b b' : Value) (amt amt' : Amount) (hin hin' : Memory) (l x x' : Limb),
    (∀ i ∈ [Instr.ucmp, .uadd, .usub, .umul, .udiv, .scmp, .sadd, .ssub, .smul, .sdiv],
      commandFn (encode (i h o)) a b amt hin = commandFn (encode (i h' o')) a b amt' hin') ∧
    (∀ i ∈ [Instr.ushl, .ushr],
      commandFn (encode (i h o)) a b amt hin = commandFn (encode (i h' o')) a b' amt hin') ∧
    (∀ i ∈ [Instr.lastset, .screate, .scrneg, .suabs],
      commandFn (encode (i h o)) a b amt hin = commandFn (encode (i h' o')) a b' amt' hin') ∧
    commandFn (encode (.clz64 h o)) (pair l x) b amt hin = commandFn (encode (.clz64 h' o')) (pair l x') b' amt' hin' ∧
    commandFn (encode (.tohex h o)) a b amt hin = commandFn (encode (.tohex h' o)) a b' amt' hin' ∧
    commandFn (encode (.fromhex h o)) a b amt hin = commandFn (encode (.fromhex h o)) a' b' amt' hin

/-! ### The datapath -/

/-- 41_unsigned_arith.md rule R130: the adder gives the sum mod 2^128, and its internal carry is exactly the carry out of the low limbs. -/
def Obligations.AdderIsModular : Prop :=
  ∀ a b : Value, add128 a b = a + b ∧
    ((lo a + lo b).toNat < (lo a).toNat ↔ 2 ^ 64 ≤ (lo a).toNat + (lo b).toNat)

/-- 41_unsigned_arith.md rule R131: the subtracter gives the difference mod 2^128, and its internal borrow is 1 exactly when the low limb of the subtrahend is the greater. -/
def Obligations.SubtracterIsModular : Prop :=
  ∀ a b : Value, sub128 a b = a - b ∧
    ((lo a - lo b).toNat > (lo a).toNat ↔ (lo b).toNat > (lo a).toNat)

/-- 41_unsigned_arith.md rules R132, R133: the limb multiplier is exact, and the 128-bit product is the product mod 2^128. -/
def Obligations.MultiplierIsExactThenTruncated : Prop :=
  (∀ x y : Limb, (mul64x64 x y).toNat = x.toNat * y.toNat) ∧ ∀ a b : Value, mul128 a b = a * b

/-- 41_unsigned_arith.md rule R134, 45_signed.md rule R212: the comparators give the order of the unsigned and of the signed integers, and exchanging the operands
negates the answer. -/
def Obligations.ComparatorsAreTheIntegerOrders : Prop :=
  ∀ a b : Value, ucmp a b = compare a.toNat b.toNat ∧ scmp a b = compare a.toInt b.toInt ∧
    ucmp b a = (ucmp a b).swap ∧ scmp b a = (scmp a b).swap

/-- 45_signed.md rules R210, R211: negation is `trunc_128(-u(m))` and `sub128(0, m)`, with 0 and 2^127 their own negations; the absolute value is `|s(v)|`, for
-2^127 too. -/
def Obligations.NegationAndAbsoluteValue : Prop :=
  (∀ m : Value, neg128 m = -m ∧ neg128 m = sub128 0 m) ∧ neg128 0 = 0 ∧
  neg128 (BitVec.ofNat 128 (2 ^ 127)) = BitVec.ofNat 128 (2 ^ 127) ∧
  ∀ v : Value, (uabs v).toNat = v.toInt.natAbs

/-- 43_shift_bitlen.md rules R170, R171: for amounts 0 to 127 the left shift multiplies by 2^n mod 2^128 and the right shift is the floor of the division by 2^n. -/
def Obligations.ShifterMultipliesAndDividesByPowers : Prop :=
  ∀ (v : Value) (n : Nat), n ≤ 127 →
    (shl128 v n).toNat = v.toNat * 2 ^ n % 2 ^ 128 ∧ (shr128 v n).toNat = v.toNat / 2 ^ n

/-- 43_shift_bitlen.md rule R172: the count of leading zeros is `63 - k` for the largest `k` with `x[k] = 1`, and 64 for 0. -/
def Obligations.LeadingZerosCountFromTheHighestBit : Prop :=
  clz64 0 = 64 ∧ (∀ x : Limb, clz64 x ≤ 64) ∧
  ∀ (x : Limb) (k : Nat), x.getLsbD k = true → (∀ j, k < j → x.getLsbD j = false) → clz64 x = 63 - k

/-- 43_shift_bitlen.md rule R173: the highest set bit is the one `k` in 0 to 127 with `2^k <= u(v) < 2^(k+1)`, and is what the leading-zero counts of the limbs give. -/
def Obligations.HighestSetBitBracketsTheValue : Prop :=
  ∀ v : Value, v ≠ 0 →
    lastset v ≤ 127 ∧ 2 ^ lastset v ≤ v.toNat ∧ v.toNat < 2 ^ (lastset v + 1) ∧
    (∀ k, 2 ^ k ≤ v.toNat → v.toNat < 2 ^ (k + 1) → k = lastset v) ∧
    lastset v = if hi v ≠ 0 then 127 - clz64 (hi v) else 63 - clz64 (lo v)

/-- 41_unsigned_arith.md rule R139, the spec's own derivation "[derived: from rules R130, R131, R133]": the arithmetic laws of the adder, subtracter and multiplier. -/
def Obligations.ArithmeticLaws : Prop :=
  ∀ a b c : Value,
    add128 a b = add128 b a ∧ add128 (add128 a b) c = add128 a (add128 b c) ∧
    sub128 (add128 a b) b = a ∧ add128 a 0 = a ∧ add128 a (sub128 0 a) = 0 ∧
    mul128 a b = mul128 b a ∧ mul128 (mul128 a b) c = mul128 a (mul128 b c) ∧
    mul128 a (add128 b c) = add128 (mul128 a b) (mul128 a c) ∧ mul128 a 1 = a

/-- 43_shift_bitlen.md rule R179, the spec's own derivation "[derived: from rules R170, R171]": the shift laws. -/
def Obligations.ShiftLaws : Prop :=
  (∀ (v : Value) (n : Nat), n ≤ 127 →
    shl128 v n = mul128 v (shl128 1 n) ∧
    shr128 (shl128 v n) n = v &&& shr128 max128 n ∧
    shl128 (shr128 v n) n = v &&& shl128 max128 n) ∧
  shl128 max128 127 = pair 0 0x8000000000000000 ∧
  ∀ v : Value, v ≠ 0 →
    lastset (shl128 1 (lastset v)) = lastset v ∧
    (shl128 1 (lastset v)).toNat ≤ v.toNat ∧ v.toNat < 2 * (shl128 1 (lastset v)).toNat

/-! ### Division -/

/-- 42_unsigned_divide.md rule R151, the spec's own derivation "[derived: from rule R150]": in case 4 the shift is 0 to 127, left-aligning the divisor loses no bit of it, and after `i` iterations the quotient is below `2^i`. -/
def Obligations.DivisionLoopLosesNoBit : Prop :=
  ∀ n d : Value, d ≠ 0 → d.toNat < n.toNat →
    lastset d ≤ lastset n ∧ divShift n d ≤ 127 ∧
    lastset (shl128 d (divShift n d)) = lastset n ∧
    (shl128 d (divShift n d)).toNat = d.toNat * 2 ^ divShift n d ∧
    ∀ i, i ≤ divShift n d + 1 → (divRun i (divStart n d)).q.toNat < 2 ^ i

/-- 42_unsigned_divide.md rule R152, the spec's own derivation "[derived: from rules R150 and R151]": the shift-subtract division is the floor quotient and the remainder, and (0, 0) for a zero divisor. -/
def Obligations.UnsignedDivisionClosedForm : Prop :=
  (∀ n d : Value, d.toNat ≠ 0 →
    (udiv n d).1.toNat = n.toNat / d.toNat ∧ (udiv n d).2.toNat = n.toNat % d.toNat ∧
    n.toNat = (udiv n d).1.toNat * d.toNat + (udiv n d).2.toNat ∧ (udiv n d).2.toNat < d.toNat) ∧
  ∀ n : Value, udiv n 0 = (0, 0)

/-- 45_signed.md rule R222, the spec's own derivation "[derived: from rule R213 and 42_unsigned_divide.md rule R152]": signed division truncates toward zero, its remainder has the sign of the dividend, the one quotient that does not fit wraps, and
`q * b + r = a` always. -/
def Obligations.SignedDivisionTruncates : Prop :=
  ∀ a b : Value, b.toInt ≠ 0 →
    (¬ (a.toInt = -2 ^ 127 ∧ b.toInt = -1) →
      (sdiv a b).1.toInt = a.toInt.tdiv b.toInt ∧
      (sdiv a b).2.toInt = a.toInt - (sdiv a b).1.toInt * b.toInt) ∧
    (a.toInt = -2 ^ 127 ∧ b.toInt = -1 → (sdiv a b).1.toInt = -2 ^ 127 ∧ (sdiv a b).2 = 0) ∧
    (sdiv a b).2.toInt.natAbs < b.toInt.natAbs ∧
    ((sdiv a b).2 = 0 ∨ (sdiv a b).2.toInt.sign = a.toInt.sign) ∧
    add128 (mul128 (sdiv a b).1 b) (sdiv a b).2 = a

/-- 45_signed.md rule R223, the spec's own derivation "[derived: from rules R210 and R211]", 90_conflicts.md C1: the sign round trip holds exactly up to 2^127; above it the answer is `2^128 - u(m)`. -/
def Obligations.SignRoundTripUpTo2Pow127 : Prop :=
  (∀ m : Value, uabs (neg128 m) = m ↔ m.toNat ≤ 2 ^ 127) ∧
  ∀ m : Value, 2 ^ 127 < m.toNat →
    (neg128 m).toNat = 2 ^ 128 - m.toNat ∧ 1 ≤ (neg128 m).toNat ∧ (neg128 m).toNat ≤ 2 ^ 127 - 1 ∧
    isNeg (neg128 m) = false ∧ uabs (neg128 m) = neg128 m

/-! ### The hex codec -/

/-- 44_hex_codec.md rules R190, R192, with the codes and the digit order the spec marks "[from general knowledge, not in source]" (log entry 7): the string is "0x", the 16 digits of the high limb and then the 16 of the low limb, most significant digit first, and the
terminator. -/
def Obligations.HexStringLayout : Prop :=
  ∀ v : Value, hexenc v 0 = 0x30 ∧ hexenc v 1 = 0x78 ∧ hexenc v 34 = 0x00 ∧
    (∀ k : Fin 16, hexenc v ⟨2 + k, by omega⟩ = digit ((hi v).extractLsb' (60 - 4 * k) 4)) ∧
    ∀ k : Fin 16, hexenc v ⟨18 + k, by omega⟩ = digit ((lo v).extractLsb' (60 - 4 * k) 4)

/-- 44_hex_codec.md rule R191, "[from general knowledge, not in source]" (log entry 7): the digit codes, and that `nibble` is defined exactly on them and inverts `digit`. -/
def Obligations.DigitsAndNibblesInvert : Prop :=
  (List.range 16).map (fun d => digit (BitVec.ofNat 4 d)) =
    [0x30, 0x31, 0x32, 0x33, 0x34, 0x35, 0x36, 0x37, 0x38, 0x39, 0x61, 0x62, 0x63, 0x64, 0x65, 0x66] ∧
  ∀ (c : Byte) (d : BitVec 4), nibble c = some d ↔ digit d = c

/-- 44_hex_codec.md rule R198, the spec's own derivation "[derived: from rules R191, R192, R194, R195]": every encoded value is valid and decodes to itself, and
every valid string is the encoding of what it decodes to. The codes and the digit order behind it are the spec's "[from general knowledge, not in source]"
(rules R190, R191; log entry 7). -/
def Obligations.HexRoundTrip : Prop :=
  (∀ v : Value, hexvalid (hexenc v) = true ∧ hexdec (hexenc v) = v) ∧
  ∀ str : HexString, hexvalid str = true → hexenc (hexdec str) = str

/-- 44_hex_codec.md rule R197, the spec's own derivation "[derived: from rule R194]": for a NUL-terminated string `t` of any length, followed by any bytes, the 35-byte window is valid iff `t` has length 34 and its
characters pass the prefix and digit tests. The codes of "0x", of the digits and of the terminator are the spec's "[from general knowledge, not in source]"
(rule R191; log entry 7). -/
def Obligations.WindowDecidesLikeTheLengthCheck : Prop :=
  ∀ (t after : List Byte) (str : HexString), (0 : Byte) ∉ t → 35 ≤ (t ++ 0 :: after).length →
    (∀ i : Fin 35, str i = (t ++ 0 :: after).getD i 0) →
      (hexvalid str = true ↔
        t.length = 34 ∧ t.getD 0 0 = 0x30 ∧ t.getD 1 0 = 0x78 ∧ ∀ k : Fin 32, (nibble (t.getD (2 + k) 0)).isSome = true)

/-! ### What each command writes -/

/-- 41_unsigned_arith.md rule R135: UCMP writes the unsigned order and nothing else. -/
def Obligations.UcmpWritesTheUnsignedOrder : Prop :=
  decode 0x0001 = .ok (.ucmp false false) ∧
  ∀ (h o : Bool) (s : State), exec (.ucmp h o) s = .next (wrote 0 0 0
    (if s.aL.toNat < s.bL.toNat then 0b11 else if s.aL = s.bL then 0b00 else 0b01) Memory.blank s)

/-- 41_unsigned_arith.md rule R136: UADD writes the sum mod 2^128 and nothing else. -/
def Obligations.UaddWritesTheSum : Prop :=
  decode 0x0002 = .ok (.uadd false false) ∧
  ∀ (h o : Bool) (s : State), exec (.uadd h o) s = .next (wrote 0 (s.aL + s.bL) 0 0b00 Memory.blank s)

/-- 41_unsigned_arith.md rule R137: USUB writes the difference mod 2^128 and nothing else. -/
def Obligations.UsubWritesTheDifference : Prop :=
  decode 0x0003 = .ok (.usub false false) ∧
  ∀ (h o : Bool) (s : State), exec (.usub h o) s = .next (wrote 0 (s.aL - s.bL) 0 0b00 Memory.blank s)

/-- 41_unsigned_arith.md rule R138: UMUL writes the product mod 2^128 and nothing else. -/
def Obligations.UmulWritesTheProduct : Prop :=
  decode 0x0004 = .ok (.umul false false) ∧
  ∀ (h o : Bool) (s : State), exec (.umul h o) s = .next (wrote 0 (s.aL * s.bL) 0 0b00 Memory.blank s)

/-- 42_unsigned_divide.md rules R150, R153, R154: UDIV with a divisor that is zero or not below the dividend completes at its first edge, with quotient and
remainder, or zeros for a zero divisor. The premise `dvRun = false` holds at a first edge by `Inv.runningIsBusy` and 40_execution.md rule R117. -/
def Obligations.UdivCompletesAtOnceInCases1To3 : Prop :=
  decode 0x0005 = .ok (.udiv false false) ∧
  ∀ (h o : Bool) (s : State), s.dvRun = false →
    (s.bL = 0 → exec (.udiv h o) s = .next (wrote 0 0 0 0b00 Memory.blank s)) ∧
    (s.bL ≠ 0 → s.aL.toNat ≤ s.bL.toNat →
      exec (.udiv h o) s = .next (wrote 0 (s.aL / s.bL) (s.aL % s.bL) 0b00 Memory.blank s))

/-- 45_signed.md rules R213, R221, 42_unsigned_divide.md rule R154: SDIV with a divisor whose magnitude is zero or not below the dividend's completes at its first
edge, with the truncating quotient and remainder, or zeros for a zero divisor. -/
def Obligations.SdivCompletesAtOnceInCases1To3 : Prop :=
  decode 0x0017 = .ok (.sdiv false false) ∧
  ∀ (h o : Bool) (s : State), s.dvRun = false →
    (s.bL = 0 → exec (.sdiv h o) s = .next (wrote 0 0 0 0b00 Memory.blank s)) ∧
    (s.bL ≠ 0 → s.aL.toInt.natAbs ≤ s.bL.toInt.natAbs →
      exec (.sdiv h o) s = .next (wrote 0 (BitVec.ofInt 128 (s.aL.toInt.tdiv s.bL.toInt))
        (BitVec.ofInt 128 (s.aL.toInt.tmod s.bL.toInt)) 0b00 Memory.blank s))

/-- 42_unsigned_divide.md rule R154, setup: in the general case a division's first edge loads the engine and writes nothing else. That `DV_RUN` alone chooses the setup is the model's
(log entry 13). -/
def Obligations.DivisionSetupLoadsTheEngine : Prop :=
  ∀ (i : Instr) (s : State) (n d : Value) (qn rn : Bool), divOperands i s.aL s.bL = some (n, d, qn, rn) →
    s.dvRun = false → d ≠ 0 → d.toNat < n.toNat →
      exec i s = .next
        { s with
          dvN := n, dvD := d <<< (Nat.log2 n.toNat - Nat.log2 d.toNat), dvQ := 0
          dvCnt := BitVec.ofNat 8 (Nat.log2 n.toNat - Nat.log2 d.toNat + 1)
          dvQneg := qn, dvRneg := rn, dvRun := true }

/-- 42_unsigned_divide.md rule R154, iteration: while the loop iterates, a division's edge subtracts the shifted divisor if it fits and shifts it; the last iteration
writes quotient and remainder with their signs and leaves `DV_Q` and `DV_N` (log entry 9). That `DV_RUN` alone chooses an iteration is the model's (log entry 13). -/
def Obligations.DivisionIterationEdge : Prop :=
  ∀ (i : Instr) (s : State) (n d : Value) (qn rn : Bool), divOperands i s.aL s.bL = some (n, d, qn, rn) →
    s.dvRun = true →
      (s.dvCnt ≠ 1 →
        exec i s = .next
          { s with
            dvN := if s.dvD.toNat ≤ s.dvN.toNat then s.dvN - s.dvD else s.dvN
            dvQ := s.dvQ <<< 1 ||| (if s.dvD.toNat ≤ s.dvN.toNat then 1 else 0)
            dvD := s.dvD >>> 1, dvCnt := s.dvCnt - 1 }) ∧
      (s.dvCnt = 1 →
        exec i s = .next (wrote 0
          (if s.dvQneg then -(s.dvQ <<< 1 ||| (if s.dvD.toNat ≤ s.dvN.toNat then 1 else 0))
            else s.dvQ <<< 1 ||| (if s.dvD.toNat ≤ s.dvN.toNat then 1 else 0))
          (if s.dvRneg then -(if s.dvD.toNat ≤ s.dvN.toNat then s.dvN - s.dvD else s.dvN)
            else if s.dvD.toNat ≤ s.dvN.toNat then s.dvN - s.dvD else s.dvN)
          0b00 Memory.blank { s with dvD := s.dvD >>> 1, dvCnt := 0, dvRun := false }))

/-- 42_unsigned_divide.md rules R153, R157: a UDIV just accepted ends, after the edges of its latency without a reset, with the floor quotient in `RES_Q` and the
remainder in `RES_R`, both 0 for a zero divisor. The floor quotient is rule R152's, "[derived: from rules R150 and R151]", and the latency rule R155's, "[derived:
from rule R154]". The premise `dvRun = false` is as in UdivCompletesAtOnceInCases1To3 (log entry 13); the coming pins are a list (log entry 1). -/
def Obligations.UdivRunsToQuotientAndRemainder : Prop :=
  decode 0x0005 = .ok (.udiv false false) ∧
  ∀ (s : State) (h o : Bool), s.busy = true → s.dvRun = false → decode s.cmdL = .ok (.udiv h o) →
    noReset (latency s.cmdL s.aL s.bL) s.inputs →
      ∃ t, Sys2Proof.core.run (latency s.cmdL s.aL s.bL) s = .next t ∧ t.busy = false ∧ t.done = true ∧
        resultRegs t = (0, s.aL / s.bL, if s.bL = 0 then 0 else s.aL % s.bL, 0b00, Memory.blank)

/-- 45_signed.md rule R221: an SDIV just accepted ends, after the edges of its latency without a reset, with the truncating quotient, wrapped where it does not
fit, and the remainder, both 0 for a zero divisor. The closed forms of quotient and remainder are rule R222's, "[derived: from rule R213 and
42_unsigned_divide.md rule R152]", and the latency 42_unsigned_divide.md rule R155's, "[derived: from rule R154]". The premise `dvRun = false` is as in
UdivCompletesAtOnceInCases1To3 (log entry 13); the coming pins are a list (log entry 1). -/
def Obligations.SdivRunsToQuotientAndRemainder : Prop :=
  decode 0x0017 = .ok (.sdiv false false) ∧
  ∀ (s : State) (h o : Bool), s.busy = true → s.dvRun = false → decode s.cmdL = .ok (.sdiv h o) →
    noReset (latency s.cmdL s.aL s.bL) s.inputs →
      ∃ t, Sys2Proof.core.run (latency s.cmdL s.aL s.bL) s = .next t ∧ t.busy = false ∧ t.done = true ∧
        resultRegs t = (0, if s.bL = 0 then 0 else BitVec.ofInt 128 (s.aL.toInt.tdiv s.bL.toInt),
          if s.bL = 0 then 0 else BitVec.ofInt 128 (s.aL.toInt.tmod s.bL.toInt), 0b00, Memory.blank)

/-- 43_shift_bitlen.md rules R174, R175: USHL writes the shifted value for amounts 0 to 127, and `ERR_RANGE` (3) with zeros for every other amount. -/
def Obligations.UshlWritesTheShiftedValue : Prop :=
  decode 0x0006 = .ok (.ushl false false) ∧
  ∀ (h o : Bool) (s : State),
    (0 ≤ s.amtL.toInt → s.amtL.toInt ≤ 127 →
      exec (.ushl h o) s = .next (wrote 0 (s.aL <<< s.amtL.toNat) 0 0b00 Memory.blank s)) ∧
    (s.amtL.toInt < 0 ∨ 127 < s.amtL.toInt →
      exec (.ushl h o) s = .next (wrote 3 0 0 0b00 Memory.blank s))

/-- 43_shift_bitlen.md rules R174, R176: USHR writes the value shifted right with zero fill for amounts 0 to 127, and `ERR_RANGE` (3) with zeros for every other amount. -/
def Obligations.UshrWritesTheShiftedValue : Prop :=
  decode 0x0007 = .ok (.ushr false false) ∧
  ∀ (h o : Bool) (s : State),
    (0 ≤ s.amtL.toInt → s.amtL.toInt ≤ 127 →
      exec (.ushr h o) s = .next (wrote 0 (s.aL >>> s.amtL.toNat) 0 0b00 Memory.blank s)) ∧
    (s.amtL.toInt < 0 ∨ 127 < s.amtL.toInt →
      exec (.ushr h o) s = .next (wrote 3 0 0 0b00 Memory.blank s))

/-- 43_shift_bitlen.md rule R177: CLZ64 writes the leading zeros of the low limb, 64 for zero, and ignores the high limb. -/
def Obligations.Clz64WritesTheLeadingZeros : Prop :=
  decode 0x0008 = .ok (.clz64 false false) ∧
  ∀ (h o : Bool) (s : State), exec (.clz64 h o) s = .next (wrote 0
    (BitVec.ofNat 128 (if s.aL.toNat % 2 ^ 64 = 0 then 64 else 63 - Nat.log2 (s.aL.toNat % 2 ^ 64)))
    0 0b00 Memory.blank s)

/-- 43_shift_bitlen.md rule R178: LASTSET writes the index of the highest set bit of a nonzero value, and `ERR_ZERO` (4) with zeros for 0. -/
def Obligations.LastsetWritesTheHighestBit : Prop :=
  decode 0x0009 = .ok (.lastset false false) ∧
  ∀ (h o : Bool) (s : State),
    (s.aL ≠ 0 → exec (.lastset h o) s =
      .next (wrote 0 (BitVec.ofNat 128 (Nat.log2 s.aL.toNat)) 0 0b00 Memory.blank s)) ∧
    (s.aL = 0 → exec (.lastset h o) s = .next (wrote 4 0 0 0b00 Memory.blank s))

/-- 44_hex_codec.md rules R190 to R193, the character codes as the spec chose them "[from general knowledge, not in source]" (log entry 7): TOHEX with `OUT_P = 1` writes the 35 bytes of the value's string, each given by its code; with `OUT_P = 0` it writes `ERR_NULL` (1) and
zeros. -/
def Obligations.TohexWritesTheString : Prop :=
  decode 0x020A = .ok (.tohex false true) ∧ decode 0x000A = .ok (.tohex false false) ∧
  ∀ (h : Bool) (s : State),
    (∃ m, exec (.tohex h true) s = .next (wrote 0 0 0 0b00 m s) ∧ Memory.wf m = true ∧
      Memory.get m 0 = 0x30 ∧ Memory.get m 1 = 0x78 ∧ Memory.get m 34 = 0x00 ∧
      ∀ k < 32, (Memory.get m (2 + k)).toNat =
        if s.aL.toNat / 16 ^ (31 - k) % 16 ≤ 9 then 0x30 + s.aL.toNat / 16 ^ (31 - k) % 16
        else 0x61 + s.aL.toNat / 16 ^ (31 - k) % 16 - 10) ∧
    exec (.tohex h false) s = .next (wrote 1 0 0 0b00 Memory.blank s)

/-- 44_hex_codec.md rules R194 to R196, R198: FROMHEX with both presence bits writes the value whose string the window holds; it writes `ERR_FORMAT` (2) with
zeros exactly where `hexvalid` fails, which is where the window holds the string of no value; without either presence bit it writes `ERR_NULL` (1) and zeros,
whatever the window holds. The character codes are the spec's "[from general knowledge, not in source]" (rule R191; log entry 7). -/
def Obligations.FromhexWritesTheDecodedValue : Prop :=
  decode 0x030B = .ok (.fromhex true true) ∧ decode 0x020B = .ok (.fromhex false true) ∧
  decode 0x010B = .ok (.fromhex true false) ∧ decode 0x000B = .ok (.fromhex false false) ∧
  ∀ s : State,
    (∀ v : Value, (∀ i : Fin 35, Memory.get s.hinL i = hexenc v i) →
      exec (.fromhex true true) s = .next (wrote 0 v 0 0b00 Memory.blank s)) ∧
    (hexvalid (fun i => Memory.get s.hinL i) = true → ∃ v : Value, ∀ i : Fin 35, Memory.get s.hinL i = hexenc v i) ∧
    (hexvalid (fun i => Memory.get s.hinL i) = false →
      exec (.fromhex true true) s = .next (wrote 2 0 0 0b00 Memory.blank s)) ∧
    ∀ h o : Bool, (h && o) = false → exec (.fromhex h o) s = .next (wrote 1 0 0 0b00 Memory.blank s)

/-- 45_signed.md rules R214, R215, R216: SCREATE copies the pattern, SCRNEG negates it, SUABS writes the unsigned absolute value. -/
def Obligations.SignedConstructorsWriteTheirPattern : Prop :=
  decode 0x0010 = .ok (.screate false false) ∧ decode 0x0011 = .ok (.scrneg false false) ∧
  decode 0x0012 = .ok (.suabs false false) ∧
  ∀ (h o : Bool) (s : State),
    exec (.screate h o) s = .next (wrote 0 s.aL 0 0b00 Memory.blank s) ∧
    exec (.scrneg h o) s = .next (wrote 0 (-s.aL) 0 0b00 Memory.blank s) ∧
    exec (.suabs h o) s = .next (wrote 0 (BitVec.ofNat 128 s.aL.toInt.natAbs) 0 0b00 Memory.blank s)

/-- 45_signed.md rule R217: SCMP writes the signed order and nothing else. -/
def Obligations.ScmpWritesTheSignedOrder : Prop :=
  decode 0x0013 = .ok (.scmp false false) ∧
  ∀ (h o : Bool) (s : State), exec (.scmp h o) s = .next (wrote 0 0 0
    (if s.aL.toInt < s.bL.toInt then 0b11 else if s.aL = s.bL then 0b00 else 0b01) Memory.blank s)

/-- 45_signed.md rules R218, R219, R220: SADD, SSUB and SMUL write the signed sum, difference and product reduced mod 2^128, the bits of their unsigned twins. -/
def Obligations.SignedArithmeticWraps : Prop :=
  decode 0x0014 = .ok (.sadd false false) ∧ decode 0x0015 = .ok (.ssub false false) ∧
  decode 0x0016 = .ok (.smul false false) ∧
  ∀ (h o : Bool) (s : State),
    exec (.sadd h o) s = .next (wrote 0 (BitVec.ofInt 128 (s.aL.toInt + s.bL.toInt)) 0 0b00 Memory.blank s) ∧
    exec (.ssub h o) s = .next (wrote 0 (BitVec.ofInt 128 (s.aL.toInt - s.bL.toInt)) 0 0b00 Memory.blank s) ∧
    exec (.smul h o) s = .next (wrote 0 (BitVec.ofInt 128 (s.aL.toInt * s.bL.toInt)) 0 0b00 Memory.blank s) ∧
    exec (.sadd h o) s = exec (.uadd h o) s ∧ exec (.ssub h o) s = exec (.usub h o) s ∧
    exec (.smul h o) s = exec (.umul h o) s

/-- 30_encoding.md rule R92, the spec's own derivation "[derived: from the rules named in the table]": each pseudo-instruction assembles to one real command whose named result is the one the table gives. -/
def Obligations.PseudoCommandsGiveTheirResults : Prop :=
  ∀ (a b : AsmValue) (v w : Value), assembleValue a = some v → assembleValue b = some w →
    (∃ r, (assemble (expand (.umov a))).map execOf = some (.ok r) ∧ r.st = .ok ∧ r.q = v) ∧
    (∃ r, (assemble (expand (.uinc a))).map execOf = some (.ok r) ∧ r.st = .ok ∧ r.q = v + 1) ∧
    (∃ r, (assemble (expand (.udec a))).map execOf = some (.ok r) ∧ r.st = .ok ∧ r.q = v - 1) ∧
    (∃ r, (assemble (expand (.uneg a))).map execOf = some (.ok r) ∧ r.st = .ok ∧ r.q = -v) ∧
    (∃ r, (assemble (expand (.unot a))).map execOf = some (.ok r) ∧ r.st = .ok ∧ r.q = ~~~v) ∧
    (∃ r, (assemble (expand (.umod a b))).map execOf = some (.ok r) ∧ r.st = .ok ∧
      r.r = if w = 0 then 0 else v % w) ∧
    (∃ r, (assemble (expand (.sneg a))).map execOf = some (.ok r) ∧ r.st = .ok ∧ r.q = BitVec.ofInt 128 (-v.toInt)) ∧
    (∃ r, (assemble (expand (.srem a b))).map execOf = some (.ok r) ∧ r.st = .ok ∧
      r.r = if w = 0 then 0 else BitVec.ofInt 128 (v.toInt.tmod w.toInt)) ∧
    (∃ r, (assemble (expand (.sabs a))).map execOf = some (.ok r) ∧ r.st = .ok ∧ r.q.toNat = v.toInt.natAbs) ∧
    ∃ r, (assemble (expand .nopchk)).map execOf = some (.ok r) ∧ regsOf r = (0, 0, 0, 0b00, Memory.blank)
end

