-- ==== Sys2Proof/Laws/Memory.lean ====
section
/-! SUPPORT. The byte spaces: reading after writing, and that every operation keeps the canonical form (20_memory.md rules R61, R62). -/

namespace Sys2Proof.Machine

@[simp] theorem Memory.get_blank (i : Nat) : Memory.get Memory.blank i = Config.unlistedByte := rfl

@[simp] theorem Memory.wf_blank : Memory.wf Memory.blank = true := rfl

theorem Memory.wfFrom_cons {least a : Nat} {b : Byte} {rest : Memory} :
    Memory.wfFrom least ((a, b) :: rest) = true ↔
      least ≤ a ∧ a < Config.hexBytes ∧ b ≠ Config.unlistedByte ∧ Memory.wfFrom (a + 1) rest = true := by
  simp [Memory.wfFrom, and_assoc]

theorem Memory.wfFrom_mono {m : Memory} {k l : Nat} (hkl : k ≤ l) (h : Memory.wfFrom l m = true) :
    Memory.wfFrom k m = true := by
  cases m with
  | nil => rfl
  | cons c rest =>
    obtain ⟨h1, h2⟩ := Memory.wfFrom_cons.1 h
    exact Memory.wfFrom_cons.2 ⟨hkl.trans h1, h2⟩

/-- Below its least listed index a canonical space reads as unlisted. -/
theorem Memory.get_below {m : Memory} {least i : Nat} (h : Memory.wfFrom least m = true) (hi : i < least) :
    Memory.get m i = Config.unlistedByte := by
  induction m generalizing least with
  | nil => rfl
  | cons c rest ih =>
    obtain ⟨h1, -, -, h4⟩ := Memory.wfFrom_cons.1 h
    have hne : c.1 ≠ i := by omega
    simpa [Memory.get, hne] using ih h4 (by omega)

theorem Memory.set_wfFrom {m : Memory} {least i : Nat} {b : Byte} (h : Memory.wfFrom least m = true)
    (hl : least ≤ i) (hi : i < Config.hexBytes) : Memory.wfFrom least (Memory.set m i b) = true := by
  induction m generalizing least with
  | nil =>
    unfold Memory.set
    split
    · rfl
    · exact Memory.wfFrom_cons.2 ⟨hl, hi, ‹_›, rfl⟩
  | cons c rest ih =>
    obtain ⟨h1, h2, h3, h4⟩ := Memory.wfFrom_cons.1 h
    unfold Memory.set
    split
    · split
      · exact h
      · exact Memory.wfFrom_cons.2 ⟨hl, hi, ‹_›, Memory.wfFrom_cons.2 ⟨by omega, h2, h3, h4⟩⟩
    · split
      · split
        · exact Memory.wfFrom_mono (by omega) h4
        · exact Memory.wfFrom_cons.2 ⟨hl, hi, ‹_›, by simpa [‹i = c.1›] using h4⟩
      · exact Memory.wfFrom_cons.2 ⟨h1, h2, h3, ih h4 (by omega)⟩

/-- A write inside the 35 bytes keeps the canonical form. -/
theorem Memory.set_wf {m : Memory} {i : Nat} {b : Byte} (h : Memory.wf m = true) (hi : i < Config.hexBytes) :
    Memory.wf (Memory.set m i b) = true :=
  Memory.set_wfFrom h (Nat.zero_le i) hi

/-- A read after a write: the byte written at its index, every other byte as before. -/
theorem Memory.get_set {m : Memory} {i : Nat} {b : Byte} (h : Memory.wf m = true) (j : Nat) :
    Memory.get (Memory.set m i b) j = if j = i then b else Memory.get m j := by
  unfold Memory.wf at h
  generalize 0 = least at h
  induction m generalizing least with
  | nil =>
    unfold Memory.set
    split_ifs with hb hj hj
    · rw [hb]; rfl
    · rfl
    · simp [Memory.get, hj]
    · simp [Memory.get, Ne.symm hj]
  | cons c rest ih =>
    obtain ⟨a, x⟩ := c
    obtain ⟨-, -, -, h4⟩ := Memory.wfFrom_cons.1 h
    have hlow : ∀ {k}, k < a + 1 → Memory.get rest k = Config.unlistedByte := Memory.get_below h4
    by_cases hj : j = i
    · subst hj
      rw [if_pos rfl]
      unfold Memory.set
      split_ifs with h1 hb h2 hb
      · have ha : a ≠ j := by omega
        simp only [Memory.get, if_neg ha, hlow (show j < a + 1 by omega), hb]
      · simp [Memory.get]
      · rw [hlow (by omega), hb]
      · simp [Memory.get]
      · have ha : a ≠ j := by omega
        simp only [Memory.get, if_neg ha]
        rw [ih (a + 1) h4, if_pos rfl]
    · rw [if_neg hj]
      unfold Memory.set
      split_ifs with h1 hb h2 hb
      · rfl
      · simp [Memory.get, Ne.symm hj]
      · have ha : a ≠ j := by omega
        simp [Memory.get, ha]
      · simp [Memory.get, Ne.symm hj, h2 ▸ Ne.symm hj]
      · simp only [Memory.get]
        rw [ih (a + 1) h4, if_neg hj]

theorem Memory.setFrom_wf {bs : List Byte} {m : Memory} {i : Nat} (h : Memory.wf m = true)
    (hi : i + bs.length ≤ Config.hexBytes) : Memory.wf (Memory.setFrom m i bs) = true := by
  induction bs generalizing m i with
  | nil => exact h
  | cons b rest ih =>
    simp only [List.length_cons] at hi
    exact ih (Memory.set_wf h (by omega)) (by omega)

/-- A read after a write of consecutive bytes. -/
theorem Memory.get_setFrom {bs : List Byte} {m : Memory} {i : Nat} (h : Memory.wf m = true)
    (hi : i + bs.length ≤ Config.hexBytes) (j : Nat) :
    Memory.get (Memory.setFrom m i bs) j =
      if i ≤ j ∧ j < i + bs.length then bs.getD (j - i) 0 else Memory.get m j := by
  induction bs generalizing m i with
  | nil => rw [if_neg (by rw [List.length_nil]; omega)]; rfl
  | cons b rest ih =>
    simp only [List.length_cons] at hi ⊢
    rw [Memory.setFrom, ih (Memory.set_wf h (by omega)) (by omega), Memory.get_set h]
    by_cases hj : j = i
    · subst hj
      have h2 : j ≤ j ∧ j < j + (rest.length + 1) := by omega
      simp [h2]
    · by_cases hin : i + 1 ≤ j ∧ j < i + 1 + rest.length
      · have h2 : i ≤ j ∧ j < i + (rest.length + 1) := by omega
        have h3 : j - i = (j - (i + 1)) + 1 := by omega
        rw [if_pos hin, if_pos h2, h3, List.getD_cons_succ]
      · have h2 : ¬ (i ≤ j ∧ j < i + (rest.length + 1)) := by omega
        rw [if_neg hin, if_neg h2, if_neg hj]

/-- Canonical spaces that read alike are equal. -/
theorem Memory.ext_wfFrom {m m' : Memory} {least : Nat} (h : Memory.wfFrom least m = true)
    (h' : Memory.wfFrom least m' = true) (hget : ∀ i, Memory.get m i = Memory.get m' i) : m = m' := by
  induction m generalizing m' least with
  | nil =>
    cases m' with
    | nil => rfl
    | cons c rest =>
      obtain ⟨-, -, hne, -⟩ := Memory.wfFrom_cons.1 h'
      exact absurd (by simpa [Memory.get] using (hget c.1).symm) hne
  | cons c rest ih =>
    obtain ⟨-, -, hne, hw⟩ := Memory.wfFrom_cons.1 h
    cases m' with
    | nil => exact absurd (by simpa [Memory.get] using hget c.1) hne
    | cons c' rest' =>
      obtain ⟨-, -, hne', hw'⟩ := Memory.wfFrom_cons.1 h'
      have key : c.1 = c'.1 := by
        rcases Nat.lt_trichotomy c.1 c'.1 with hlt | heq | hlt
        · have := hget c.1
          have h0 : Memory.get rest' c.1 = Config.unlistedByte := Memory.get_below hw' (by omega)
          simp [Memory.get, h0, show c'.1 ≠ c.1 by omega] at this
          exact absurd this hne
        · exact heq
        · have := hget c'.1
          have h0 : Memory.get rest c'.1 = Config.unlistedByte := Memory.get_below hw (by omega)
          simp [Memory.get, h0, show c.1 ≠ c'.1 by omega] at this
          exact absurd this.symm hne'
      have hval : c.2 = c'.2 := by simpa [Memory.get, key] using hget c.1
      have hrest : rest = rest' := by
        refine ih hw (by rw [key]; exact hw') fun i => ?_
        by_cases hi : i < c.1 + 1
        · rw [Memory.get_below hw hi, Memory.get_below hw' (by omega)]
        · have := hget i
          simpa [Memory.get, show c.1 ≠ i by omega, show c'.1 ≠ i by omega] using this
      rw [show c = c' from Prod.ext key hval, hrest]

theorem Memory.ext_wf {m m' : Memory} (h : Memory.wf m = true) (h' : Memory.wf m' = true)
    (hget : ∀ i, Memory.get m i = Memory.get m' i) : m = m' :=
  Memory.ext_wfFrom h h' hget

theorem getD_ofFn {n : Nat} (v : Fin n → Byte) (k : Fin n) (d : Byte) : (List.ofFn v).getD k d = v k := by
  rw [List.getD_eq_getElem _ _ (by simp)]
  exact List.getElem_ofFn _

/-- A latched port is a canonical byte space. -/
theorem memoryOfPort_wf (p : HexPort) : Memory.wf (memoryOfPort p) = true := by
  unfold memoryOfPort
  exact Memory.setFrom_wf Memory.wf_blank (by simp [Config.hexBytes])

/-- Byte `i` of a latched port. -/
theorem memoryOfPort_get (p : HexPort) (i : Fin 35) : Memory.get (memoryOfPort p) i = bytesOfPort p i := by
  unfold memoryOfPort
  rw [Memory.get_setFrom Memory.wf_blank (by simp [Config.hexBytes])]
  rw [if_pos ⟨Nat.zero_le _, by rw [List.length_ofFn]; omega⟩]
  exact getD_ofFn _ i 0

/-- Everything `memRead` can do. -/
theorem memRead_cases (m : Memory) (i n : Nat) :
    (i + n ≤ Config.hexBytes ∧ memRead m i n = .ok fun k => Memory.get m (i + k)) ∨
      (Config.hexBytes < i + n ∧ memRead m i n = .error (.hexIndexOutside (i + n - 1))) := by
  unfold memRead
  split
  · exact .inl ⟨‹_›, rfl⟩
  · exact .inr ⟨by omega, rfl⟩

/-- Everything `memWrite` can do: inside the space it keeps the canonical form and changes exactly the bytes written. -/
theorem memWrite_cases {m : Memory} (hm : Memory.wf m = true) (i n : Nat) (v : Fin n → Byte) :
    (i + n ≤ Config.hexBytes ∧ ∃ m', memWrite m i n v = .ok m' ∧ Memory.wf m' = true ∧
        (∀ k : Fin n, Memory.get m' (i + k) = v k) ∧ ∀ j, j < i ∨ i + n ≤ j → Memory.get m' j = Memory.get m j) ∨
      (Config.hexBytes < i + n ∧ memWrite m i n v = .error (.hexIndexOutside (i + n - 1))) := by
  unfold memWrite
  split
  · refine .inl ⟨‹_›, _, rfl, Memory.setFrom_wf hm (by simpa using ‹_›), fun k => ?_, fun j hj => ?_⟩
    · rw [Memory.get_setFrom hm (by simpa using ‹_›)]
      rw [if_pos ⟨by omega, by simp⟩, Nat.add_sub_cancel_left]
      exact getD_ofFn v k 0
    · rw [Memory.get_setFrom hm (by simpa using ‹_›)]
      rw [if_neg (by simp; omega)]
  · exact .inr ⟨by omega, rfl⟩

end Sys2Proof.Machine
end

