-- ==== Sys2Proof/Laws/State.lean ====
section
/-! SUPPORT. One lemma per field per update of the state, each true by rfl, so that no proof unfolds a record update. -/

namespace Sys2Proof.Machine

section
variable (s : State)

@[simp] theorem advanceInputs_inputs : (advanceInputs s).inputs = s.inputs.tail := rfl
@[simp] theorem advanceInputs_busy : (advanceInputs s).busy = s.busy := rfl
@[simp] theorem advanceInputs_done : (advanceInputs s).done = s.done := rfl
@[simp] theorem advanceInputs_resStatus : (advanceInputs s).resStatus = s.resStatus := rfl
@[simp] theorem advanceInputs_resQ : (advanceInputs s).resQ = s.resQ := rfl
@[simp] theorem advanceInputs_resR : (advanceInputs s).resR = s.resR := rfl
@[simp] theorem advanceInputs_resCmp : (advanceInputs s).resCmp = s.resCmp := rfl
@[simp] theorem advanceInputs_resHex : (advanceInputs s).resHex = s.resHex := rfl
@[simp] theorem advanceInputs_cmdL : (advanceInputs s).cmdL = s.cmdL := rfl
@[simp] theorem advanceInputs_aL : (advanceInputs s).aL = s.aL := rfl
@[simp] theorem advanceInputs_bL : (advanceInputs s).bL = s.bL := rfl
@[simp] theorem advanceInputs_amtL : (advanceInputs s).amtL = s.amtL := rfl
@[simp] theorem advanceInputs_hinL : (advanceInputs s).hinL = s.hinL := rfl
@[simp] theorem advanceInputs_dvN : (advanceInputs s).dvN = s.dvN := rfl
@[simp] theorem advanceInputs_dvD : (advanceInputs s).dvD = s.dvD := rfl
@[simp] theorem advanceInputs_dvQ : (advanceInputs s).dvQ = s.dvQ := rfl
@[simp] theorem advanceInputs_dvCnt : (advanceInputs s).dvCnt = s.dvCnt := rfl
@[simp] theorem advanceInputs_dvQneg : (advanceInputs s).dvQneg = s.dvQneg := rfl
@[simp] theorem advanceInputs_dvRneg : (advanceInputs s).dvRneg = s.dvRneg := rfl
@[simp] theorem advanceInputs_dvRun : (advanceInputs s).dvRun = s.dvRun := rfl

end

section
variable (p : Pins) (s : State)

@[simp] theorem accept_inputs : (accept p s).inputs = s.inputs := rfl
@[simp] theorem accept_busy : (accept p s).busy = true := rfl
@[simp] theorem accept_done : (accept p s).done = false := rfl
@[simp] theorem accept_resStatus : (accept p s).resStatus = s.resStatus := rfl
@[simp] theorem accept_resQ : (accept p s).resQ = s.resQ := rfl
@[simp] theorem accept_resR : (accept p s).resR = s.resR := rfl
@[simp] theorem accept_resCmp : (accept p s).resCmp = s.resCmp := rfl
@[simp] theorem accept_resHex : (accept p s).resHex = s.resHex := rfl
@[simp] theorem accept_cmdL : (accept p s).cmdL = p.reqCmd := rfl
@[simp] theorem accept_aL : (accept p s).aL = p.reqA := rfl
@[simp] theorem accept_bL : (accept p s).bL = p.reqB := rfl
@[simp] theorem accept_amtL : (accept p s).amtL = p.reqAmt := rfl
@[simp] theorem accept_hinL : (accept p s).hinL = memoryOfPort p.reqHin := rfl
@[simp] theorem accept_dvN : (accept p s).dvN = s.dvN := rfl
@[simp] theorem accept_dvD : (accept p s).dvD = s.dvD := rfl
@[simp] theorem accept_dvQ : (accept p s).dvQ = s.dvQ := rfl
@[simp] theorem accept_dvCnt : (accept p s).dvCnt = s.dvCnt := rfl
@[simp] theorem accept_dvQneg : (accept p s).dvQneg = s.dvQneg := rfl
@[simp] theorem accept_dvRneg : (accept p s).dvRneg = s.dvRneg := rfl
@[simp] theorem accept_dvRun : (accept p s).dvRun = s.dvRun := rfl

end

section
variable (r : Results) (s : State)

@[simp] theorem complete_inputs : (complete r s).inputs = s.inputs := rfl
@[simp] theorem complete_busy : (complete r s).busy = false := rfl
@[simp] theorem complete_done : (complete r s).done = true := rfl
@[simp] theorem complete_resStatus : (complete r s).resStatus = statusCode r.st := rfl
@[simp] theorem complete_resQ : (complete r s).resQ = r.q := rfl
@[simp] theorem complete_resR : (complete r s).resR = r.r := rfl
@[simp] theorem complete_resCmp : (complete r s).resCmp = r.cmp := rfl
@[simp] theorem complete_resHex : (complete r s).resHex = r.hout := rfl
@[simp] theorem complete_cmdL : (complete r s).cmdL = s.cmdL := rfl
@[simp] theorem complete_aL : (complete r s).aL = s.aL := rfl
@[simp] theorem complete_bL : (complete r s).bL = s.bL := rfl
@[simp] theorem complete_amtL : (complete r s).amtL = s.amtL := rfl
@[simp] theorem complete_hinL : (complete r s).hinL = s.hinL := rfl
@[simp] theorem complete_dvN : (complete r s).dvN = s.dvN := rfl
@[simp] theorem complete_dvD : (complete r s).dvD = s.dvD := rfl
@[simp] theorem complete_dvQ : (complete r s).dvQ = s.dvQ := rfl
@[simp] theorem complete_dvCnt : (complete r s).dvCnt = s.dvCnt := rfl
@[simp] theorem complete_dvQneg : (complete r s).dvQneg = s.dvQneg := rfl
@[simp] theorem complete_dvRneg : (complete r s).dvRneg = s.dvRneg := rfl
@[simp] theorem complete_dvRun : (complete r s).dvRun = s.dvRun := rfl

end

section
variable (cmd : CmdWord) (s : State)

@[simp] theorem placeCommand_inputs : (placeCommand cmd s).inputs = withoutReset s.inputs := rfl
@[simp] theorem placeCommand_busy : (placeCommand cmd s).busy = true := rfl
@[simp] theorem placeCommand_done : (placeCommand cmd s).done = false := rfl
@[simp] theorem placeCommand_resStatus : (placeCommand cmd s).resStatus = s.resStatus := rfl
@[simp] theorem placeCommand_resQ : (placeCommand cmd s).resQ = s.resQ := rfl
@[simp] theorem placeCommand_resR : (placeCommand cmd s).resR = s.resR := rfl
@[simp] theorem placeCommand_resCmp : (placeCommand cmd s).resCmp = s.resCmp := rfl
@[simp] theorem placeCommand_resHex : (placeCommand cmd s).resHex = s.resHex := rfl
@[simp] theorem placeCommand_cmdL : (placeCommand cmd s).cmdL = cmd := rfl
@[simp] theorem placeCommand_aL : (placeCommand cmd s).aL = s.aL := rfl
@[simp] theorem placeCommand_bL : (placeCommand cmd s).bL = s.bL := rfl
@[simp] theorem placeCommand_amtL : (placeCommand cmd s).amtL = s.amtL := rfl
@[simp] theorem placeCommand_hinL : (placeCommand cmd s).hinL = s.hinL := rfl
@[simp] theorem placeCommand_dvN : (placeCommand cmd s).dvN = s.dvN := rfl
@[simp] theorem placeCommand_dvD : (placeCommand cmd s).dvD = s.dvD := rfl
@[simp] theorem placeCommand_dvQ : (placeCommand cmd s).dvQ = s.dvQ := rfl
@[simp] theorem placeCommand_dvCnt : (placeCommand cmd s).dvCnt = s.dvCnt := rfl
@[simp] theorem placeCommand_dvQneg : (placeCommand cmd s).dvQneg = s.dvQneg := rfl
@[simp] theorem placeCommand_dvRneg : (placeCommand cmd s).dvRneg = s.dvRneg := rfl
@[simp] theorem placeCommand_dvRun : (placeCommand cmd s).dvRun = false := rfl

end

section
variable (n d : Value) (qn rn : Bool) (s : State)

@[simp] theorem divLoad_inputs : (divLoad n d qn rn s).inputs = s.inputs := rfl
@[simp] theorem divLoad_busy : (divLoad n d qn rn s).busy = s.busy := rfl
@[simp] theorem divLoad_done : (divLoad n d qn rn s).done = s.done := rfl
@[simp] theorem divLoad_resStatus : (divLoad n d qn rn s).resStatus = s.resStatus := rfl
@[simp] theorem divLoad_resQ : (divLoad n d qn rn s).resQ = s.resQ := rfl
@[simp] theorem divLoad_resR : (divLoad n d qn rn s).resR = s.resR := rfl
@[simp] theorem divLoad_resCmp : (divLoad n d qn rn s).resCmp = s.resCmp := rfl
@[simp] theorem divLoad_resHex : (divLoad n d qn rn s).resHex = s.resHex := rfl
@[simp] theorem divLoad_cmdL : (divLoad n d qn rn s).cmdL = s.cmdL := rfl
@[simp] theorem divLoad_aL : (divLoad n d qn rn s).aL = s.aL := rfl
@[simp] theorem divLoad_bL : (divLoad n d qn rn s).bL = s.bL := rfl
@[simp] theorem divLoad_amtL : (divLoad n d qn rn s).amtL = s.amtL := rfl
@[simp] theorem divLoad_hinL : (divLoad n d qn rn s).hinL = s.hinL := rfl
@[simp] theorem divLoad_dvN : (divLoad n d qn rn s).dvN = n := rfl
@[simp] theorem divLoad_dvD : (divLoad n d qn rn s).dvD = (divStart n d).dd := rfl
@[simp] theorem divLoad_dvQ : (divLoad n d qn rn s).dvQ = 0 := rfl
@[simp] theorem divLoad_dvCnt : (divLoad n d qn rn s).dvCnt = BitVec.ofNat 8 (divShift n d + 1) := rfl
@[simp] theorem divLoad_dvQneg : (divLoad n d qn rn s).dvQneg = qn := rfl
@[simp] theorem divLoad_dvRneg : (divLoad n d qn rn s).dvRneg = rn := rfl
@[simp] theorem divLoad_dvRun : (divLoad n d qn rn s).dvRun = true := rfl

end

section
variable (s : State)

@[simp] theorem divCount_inputs : (divCount s).inputs = s.inputs := rfl
@[simp] theorem divCount_busy : (divCount s).busy = s.busy := rfl
@[simp] theorem divCount_done : (divCount s).done = s.done := rfl
@[simp] theorem divCount_resStatus : (divCount s).resStatus = s.resStatus := rfl
@[simp] theorem divCount_resQ : (divCount s).resQ = s.resQ := rfl
@[simp] theorem divCount_resR : (divCount s).resR = s.resR := rfl
@[simp] theorem divCount_resCmp : (divCount s).resCmp = s.resCmp := rfl
@[simp] theorem divCount_resHex : (divCount s).resHex = s.resHex := rfl
@[simp] theorem divCount_cmdL : (divCount s).cmdL = s.cmdL := rfl
@[simp] theorem divCount_aL : (divCount s).aL = s.aL := rfl
@[simp] theorem divCount_bL : (divCount s).bL = s.bL := rfl
@[simp] theorem divCount_amtL : (divCount s).amtL = s.amtL := rfl
@[simp] theorem divCount_hinL : (divCount s).hinL = s.hinL := rfl
@[simp] theorem divCount_dvN : (divCount s).dvN = s.dvN := rfl
@[simp] theorem divCount_dvD : (divCount s).dvD = shr128 s.dvD 1 := rfl
@[simp] theorem divCount_dvQ : (divCount s).dvQ = s.dvQ := rfl
@[simp] theorem divCount_dvCnt : (divCount s).dvCnt = s.dvCnt - 1 := rfl
@[simp] theorem divCount_dvQneg : (divCount s).dvQneg = s.dvQneg := rfl
@[simp] theorem divCount_dvRneg : (divCount s).dvRneg = s.dvRneg := rfl
@[simp] theorem divCount_dvRun : (divCount s).dvRun = s.dvRun := rfl

end

section
variable (l : DivLoop) (s : State)

@[simp] theorem divKeep_inputs : (divKeep l s).inputs = s.inputs := rfl
@[simp] theorem divKeep_busy : (divKeep l s).busy = s.busy := rfl
@[simp] theorem divKeep_done : (divKeep l s).done = s.done := rfl
@[simp] theorem divKeep_resStatus : (divKeep l s).resStatus = s.resStatus := rfl
@[simp] theorem divKeep_resQ : (divKeep l s).resQ = s.resQ := rfl
@[simp] theorem divKeep_resR : (divKeep l s).resR = s.resR := rfl
@[simp] theorem divKeep_resCmp : (divKeep l s).resCmp = s.resCmp := rfl
@[simp] theorem divKeep_resHex : (divKeep l s).resHex = s.resHex := rfl
@[simp] theorem divKeep_cmdL : (divKeep l s).cmdL = s.cmdL := rfl
@[simp] theorem divKeep_aL : (divKeep l s).aL = s.aL := rfl
@[simp] theorem divKeep_bL : (divKeep l s).bL = s.bL := rfl
@[simp] theorem divKeep_amtL : (divKeep l s).amtL = s.amtL := rfl
@[simp] theorem divKeep_hinL : (divKeep l s).hinL = s.hinL := rfl
@[simp] theorem divKeep_dvN : (divKeep l s).dvN = l.n := rfl
@[simp] theorem divKeep_dvD : (divKeep l s).dvD = s.dvD := rfl
@[simp] theorem divKeep_dvQ : (divKeep l s).dvQ = l.q := rfl
@[simp] theorem divKeep_dvCnt : (divKeep l s).dvCnt = s.dvCnt := rfl
@[simp] theorem divKeep_dvQneg : (divKeep l s).dvQneg = s.dvQneg := rfl
@[simp] theorem divKeep_dvRneg : (divKeep l s).dvRneg = s.dvRneg := rfl
@[simp] theorem divKeep_dvRun : (divKeep l s).dvRun = s.dvRun := rfl

end

section
variable (s : State)

@[simp] theorem divStop_inputs : (divStop s).inputs = s.inputs := rfl
@[simp] theorem divStop_busy : (divStop s).busy = s.busy := rfl
@[simp] theorem divStop_done : (divStop s).done = s.done := rfl
@[simp] theorem divStop_resStatus : (divStop s).resStatus = s.resStatus := rfl
@[simp] theorem divStop_resQ : (divStop s).resQ = s.resQ := rfl
@[simp] theorem divStop_resR : (divStop s).resR = s.resR := rfl
@[simp] theorem divStop_resCmp : (divStop s).resCmp = s.resCmp := rfl
@[simp] theorem divStop_resHex : (divStop s).resHex = s.resHex := rfl
@[simp] theorem divStop_cmdL : (divStop s).cmdL = s.cmdL := rfl
@[simp] theorem divStop_aL : (divStop s).aL = s.aL := rfl
@[simp] theorem divStop_bL : (divStop s).bL = s.bL := rfl
@[simp] theorem divStop_amtL : (divStop s).amtL = s.amtL := rfl
@[simp] theorem divStop_hinL : (divStop s).hinL = s.hinL := rfl
@[simp] theorem divStop_dvN : (divStop s).dvN = s.dvN := rfl
@[simp] theorem divStop_dvD : (divStop s).dvD = s.dvD := rfl
@[simp] theorem divStop_dvQ : (divStop s).dvQ = s.dvQ := rfl
@[simp] theorem divStop_dvCnt : (divStop s).dvCnt = s.dvCnt := rfl
@[simp] theorem divStop_dvQneg : (divStop s).dvQneg = s.dvQneg := rfl
@[simp] theorem divStop_dvRneg : (divStop s).dvRneg = s.dvRneg := rfl
@[simp] theorem divStop_dvRun : (divStop s).dvRun = false := rfl

end

@[simp] theorem resetEdge_inputs (s : State) : (resetEdge s).inputs = s.inputs := rfl
@[simp] theorem resetEdge_busy (s : State) : (resetEdge s).busy = false := rfl
@[simp] theorem reset_busy : State.reset.busy = false := rfl
@[simp] theorem resetEdge_done (s : State) : (resetEdge s).done = false := rfl
@[simp] theorem reset_done : State.reset.done = false := rfl
@[simp] theorem resetEdge_resStatus (s : State) : (resetEdge s).resStatus = 0 := rfl
@[simp] theorem reset_resStatus : State.reset.resStatus = 0 := rfl
@[simp] theorem resetEdge_resQ (s : State) : (resetEdge s).resQ = 0 := rfl
@[simp] theorem reset_resQ : State.reset.resQ = 0 := rfl
@[simp] theorem resetEdge_resR (s : State) : (resetEdge s).resR = 0 := rfl
@[simp] theorem reset_resR : State.reset.resR = 0 := rfl
@[simp] theorem resetEdge_resCmp (s : State) : (resetEdge s).resCmp = 0 := rfl
@[simp] theorem reset_resCmp : State.reset.resCmp = 0 := rfl
@[simp] theorem resetEdge_resHex (s : State) : (resetEdge s).resHex = Memory.blank := rfl
@[simp] theorem reset_resHex : State.reset.resHex = Memory.blank := rfl
@[simp] theorem resetEdge_cmdL (s : State) : (resetEdge s).cmdL = 0 := rfl
@[simp] theorem reset_cmdL : State.reset.cmdL = 0 := rfl
@[simp] theorem resetEdge_aL (s : State) : (resetEdge s).aL = 0 := rfl
@[simp] theorem reset_aL : State.reset.aL = 0 := rfl
@[simp] theorem resetEdge_bL (s : State) : (resetEdge s).bL = 0 := rfl
@[simp] theorem reset_bL : State.reset.bL = 0 := rfl
@[simp] theorem resetEdge_amtL (s : State) : (resetEdge s).amtL = 0 := rfl
@[simp] theorem reset_amtL : State.reset.amtL = 0 := rfl
@[simp] theorem resetEdge_hinL (s : State) : (resetEdge s).hinL = Memory.blank := rfl
@[simp] theorem reset_hinL : State.reset.hinL = Memory.blank := rfl
@[simp] theorem resetEdge_dvN (s : State) : (resetEdge s).dvN = 0 := rfl
@[simp] theorem reset_dvN : State.reset.dvN = 0 := rfl
@[simp] theorem resetEdge_dvD (s : State) : (resetEdge s).dvD = 0 := rfl
@[simp] theorem reset_dvD : State.reset.dvD = 0 := rfl
@[simp] theorem resetEdge_dvQ (s : State) : (resetEdge s).dvQ = 0 := rfl
@[simp] theorem reset_dvQ : State.reset.dvQ = 0 := rfl
@[simp] theorem resetEdge_dvCnt (s : State) : (resetEdge s).dvCnt = 0 := rfl
@[simp] theorem reset_dvCnt : State.reset.dvCnt = 0 := rfl
@[simp] theorem resetEdge_dvQneg (s : State) : (resetEdge s).dvQneg = false := rfl
@[simp] theorem reset_dvQneg : State.reset.dvQneg = false := rfl
@[simp] theorem resetEdge_dvRneg (s : State) : (resetEdge s).dvRneg = false := rfl
@[simp] theorem reset_dvRneg : State.reset.dvRneg = false := rfl
@[simp] theorem resetEdge_dvRun (s : State) : (resetEdge s).dvRun = false := rfl
@[simp] theorem reset_dvRun : State.reset.dvRun = false := rfl

@[simp] theorem resultRegs_advanceInputs (s : State) : resultRegs (advanceInputs s) = resultRegs s := rfl

@[simp] theorem resultRegs_accept (p : Pins) (s : State) : resultRegs (accept p s) = resultRegs s := rfl

@[simp] theorem resultRegs_complete (r : Results) (s : State) : resultRegs (complete r s) = regsOf r := rfl

@[simp] theorem resultRegs_divLoad (n d : Value) (qn rn : Bool) (s : State) : resultRegs (divLoad n d qn rn s) = resultRegs s := rfl

@[simp] theorem resultRegs_divKeep (l : DivLoop) (s : State) : resultRegs (divKeep l s) = resultRegs s := rfl

@[simp] theorem resultRegs_divCount (s : State) : resultRegs (divCount s) = resultRegs s := rfl

/-- `complete` in the terms claims use. -/
theorem complete_eq_wrote (r : Results) (s : State) :
    complete r s = wrote (statusCode r.st) r.q r.r r.cmp r.hout s := rfl

/-- Two states are equal when every register and the coming pins are. -/
theorem State.ext_fields {s t : State}
    (h : (s.inputs, s.busy, s.done, resultRegs s, s.cmdL, s.aL, s.bL, s.amtL, s.hinL) =
      (t.inputs, t.busy, t.done, resultRegs t, t.cmdL, t.aL, t.bL, t.amtL, t.hinL))
    (hd : (s.dvN, s.dvD, s.dvQ, s.dvCnt, s.dvQneg, s.dvRneg, s.dvRun) =
      (t.dvN, t.dvD, t.dvQ, t.dvCnt, t.dvQneg, t.dvRneg, t.dvRun)) : s = t := by
  cases s; cases t
  simp_all [resultRegs]

end Sys2Proof.Machine
end

