-- ==== Sys2Proof/Laws/Ops.lean ====
section
/-! SUPPORT. For each shared operation, once, everything it can do; proofs cite these and do not unfold the operation. -/

namespace Sys2Proof.Machine

/-- The status codes 5 and 6 name no status. -/
theorem statusCode_named (st : Status) : statusCode st ≠ 5 ∧ statusCode st ≠ 6 := by
  cases st <;> decide

theorem statusCode_eq_zero {st : Status} : statusCode st = 0 ↔ st = .ok := by
  cases st <;> decide

theorem statusCode_injective {st st' : Status} (h : statusCode st = statusCode st') : st = st' := by
  revert h
  cases st <;> cases st' <;> decide

theorem enc2_named (o : Ordering) : enc2 o ≠ 0b10 := by
  cases o <;> decide

@[simp] theorem regsOf_failed (st : Status) : regsOf (failed st) = (statusCode st, 0, 0, 0, Memory.blank) := rfl

/-- `finish` always completes. -/
theorem finish_eq (r : Results) (s : State) : finish r s = .next (complete r s) := rfl

/-- `raise Status(code)` always completes, with the code and zeros (40_execution.md rule R113). -/
theorem raiseStatus_eq (st : Status) (s : State) :
    raiseStatus st s = .next (wrote (statusCode st) 0 0 0b00 Memory.blank s) := rfl

/-- If `finishOrFault` answers a next state, the results were there and were written. -/
theorem finishOrFault_next {r : Except Fault Results} {s t : State} (h : finishOrFault r s = .next t) :
    ∃ r', r = .ok r' ∧ t = complete r' s := by
  cases r with
  | ok r' => exact ⟨r', rfl, by cases h; rfl⟩
  | error f => cases h

/-- TOHEX never forms an index outside its buffer. -/
theorem tohexResult_ok (outP : Bool) (a : Value) :
    ∃ r, tohexResult outP a = .ok r ∧
      ((outP = false ∧ r = failed .errNull) ∨
        (outP = true ∧ ∃ m, r = { okDefaults with hout := m } ∧ Memory.wf m = true ∧
          ∀ i : Fin 35, Memory.get m i = hexenc a i)) := by
  cases outP with
  | false => exact ⟨_, rfl, .inl ⟨rfl, rfl⟩⟩
  | true =>
    rcases memWrite_cases Memory.wf_blank 0 Config.hexBytes (hexenc a) with ⟨-, m, hm, hw, hg, -⟩ | ⟨h, -⟩
    · exact ⟨{ okDefaults with hout := m }, by simp [tohexResult, hm], .inr ⟨rfl, m, rfl, hw, fun i => by simpa using hg i⟩⟩
    · exact absurd h (by decide)

/-- FROMHEX never forms an index outside its window. -/
theorem fromhexResult_ok (hinP outP : Bool) (hin : Memory) :
    fromhexResult hinP outP hin =
      .ok (if hinP && outP then
        if hexvalid (fun i => Memory.get hin i) then { okDefaults with q := hexdec fun i => Memory.get hin i }
        else failed .errFormat
      else failed .errNull) := by
  unfold fromhexResult
  split
  · rcases memRead_cases hin 0 Config.hexBytes with ⟨-, h⟩ | ⟨h, -⟩
    · rw [h]
      simp only [Nat.zero_add]
      split <;> rfl
    · exact absurd h (by decide)
  · rfl

/-- Everything one edge of a division can do (42_unsigned_divide.md rule R154). -/
theorem divEdge_cases (n d : Value) (qn rn : Bool) (s : State) :
    (s.dvRun = false ∧ divSpecial n d = true ∧
        divEdge n d qn rn s = complete (divResults (divSigned (udiv n d) qn rn)) s) ∨
      (s.dvRun = false ∧ divSpecial n d = false ∧ divEdge n d qn rn s = divLoad n d qn rn s) ∨
      (s.dvRun = true ∧ s.dvCnt = 1 ∧
        divEdge n d qn rn s =
          complete (divResults (divSigned ((divBody ⟨s.dvN, s.dvD, s.dvQ⟩).q, (divBody ⟨s.dvN, s.dvD, s.dvQ⟩).n)
            s.dvQneg s.dvRneg)) (divStop (divCount s))) ∨
      (s.dvRun = true ∧ s.dvCnt ≠ 1 ∧
        divEdge n d qn rn s = divKeep (divBody ⟨s.dvN, s.dvD, s.dvQ⟩) (divCount s)) := by
  unfold divEdge divSetup divIterate
  cases hr : s.dvRun
  · cases hs : divSpecial n d
    · exact .inr (.inl ⟨rfl, rfl, rfl⟩)
    · exact .inl ⟨rfl, rfl, rfl⟩
  · by_cases hc : s.dvCnt = 1
    · exact .inr (.inr (.inl ⟨rfl, hc, if_pos hc⟩))
    · exact .inr (.inr (.inr ⟨rfl, hc, if_neg hc⟩))

/-- Everything one edge can do (40_execution.md rule R116). -/
theorem clockEdge_cases (s : State) :
    ((sample s).rst = true ∧ clockEdge s = .next (resetEdge (advanceInputs s))) ∨
      ((sample s).rst = false ∧ s.busy = false ∧ (sample s).reqValid = true ∧
        clockEdge s = .next (accept (sample s) (advanceInputs s))) ∨
      ((sample s).rst = false ∧ s.busy = true ∧ clockEdge s = runCommand (advanceInputs s)) ∨
      ((sample s).rst = false ∧ s.busy = false ∧ (sample s).reqValid = false ∧
        clockEdge s = .next (advanceInputs s)) := by
  unfold clockEdge
  cases (sample s).rst <;> cases s.busy <;> cases (sample s).reqValid <;> simp

@[simp] theorem sample_cons (s : State) (p : Pins) (rest : List Pins) :
    sample { s with inputs := p :: rest } = p := rfl

theorem sample_of_inputs {s : State} {p : Pins} {rest : List Pins} (h : s.inputs = p :: rest) : sample s = p := by
  simp [sample, h]

/-- The accepting edge after a placed command runs it: no reset comes first and the command is in progress. -/
theorem sample_placeCommand (cmd : CmdWord) (s : State) : (sample (placeCommand cmd s)).rst = false := by
  unfold sample
  simp only [placeCommand_inputs]
  cases s.inputs <;> rfl

/-- The very next step runs the placed command. -/
theorem step_placeCommand (cmd : CmdWord) (s : State) :
    step (placeCommand cmd s) = runCommand (advanceInputs (placeCommand cmd s)) := by
  rcases clockEdge_cases (placeCommand cmd s) with h | h | h | h
  · exact absurd h.1 (by simp [sample_placeCommand])
  · exact absurd h.2.1 (by simp)
  · exact h.2.2
  · exact absurd h.2.1 (by simp)

end Sys2Proof.Machine
end

