-- ==== Sys2Proof/Laws/Exec.lean ====
section
/-! SUPPORT. Everything a command's edge can do, said once: it completes with what `Exec` gives it, or takes one edge of the division engine. -/

namespace Sys2Proof.Machine

/-- `Exec` of a legal command is total (40_execution.md rule R110: "Every arm of the case is total"). -/
theorem commandResult_ok (i : Instr) (a b : Value) (amt : Amount) (hin : Memory) :
    ∃ r, commandResult i a b amt hin = .ok r := by
  cases i with
  | tohex h o =>
    obtain ⟨r, hr, -⟩ := tohexResult_ok o a
    exact ⟨r, hr⟩
  | fromhex h o => exact ⟨_, fromhexResult_ok h o hin⟩
  | _ => exact ⟨_, rfl⟩

/-- What a division's `Exec` arm gives, in the engine's terms (42_unsigned_divide.md rule R156). -/
theorem commandResult_division {i : Instr} {a b n d : Value} {qn rn : Bool}
    (h : divOperands i a b = some (n, d, qn, rn)) (amt : Amount) (hin : Memory) :
    commandResult i a b amt hin = .ok (divResults (divSigned (udiv n d) qn rn)) := by
  cases i <;> simp only [divOperands, Option.some.injEq, Prod.mk.injEq, reduceCtorEq] at h
  all_goals obtain ⟨rfl, rfl, rfl, rfl⟩ := h; rfl

/-- Everything one edge of a legal command can do. -/
theorem exec_cases (i : Instr) (s : State) :
    (divOperands i s.aL s.bL = none ∧ ∃ r, commandResult i s.aL s.bL s.amtL s.hinL = .ok r ∧
        exec i s = .next (complete r s)) ∨
      ∃ n d qn rn, divOperands i s.aL s.bL = some (n, d, qn, rn) ∧ exec i s = .next (divEdge n d qn rn s) := by
  cases i with
  | udiv h o => exact .inr ⟨_, _, _, _, rfl, rfl⟩
  | sdiv h o => exact .inr ⟨_, _, _, _, rfl, rfl⟩
  | tohex h o =>
    obtain ⟨r, hr, -⟩ := tohexResult_ok o s.aL
    exact .inl ⟨rfl, r, hr, by simp only [exec, execTohex, opA, hr]; rfl⟩
  | fromhex h o =>
    refine .inl ⟨rfl, _, fromhexResult_ok h o s.hinL, ?_⟩
    simp only [exec, execFromhex, opHin, fromhexResult_ok]; rfl
  | _ => exact .inl ⟨rfl, _, rfl, rfl⟩

/-- What an arm of `Exec` can give: `CMP` is never `10`, `HOUT` keeps the canonical form, and a failed command returns its code and zeros
(10_state.md rule R26, 60_exceptions.md rule R249). -/
theorem commandResult_shape {i : Instr} {a b : Value} {amt : Amount} {hin : Memory} {r : Results}
    (h : commandResult i a b amt hin = .ok r) :
    r.cmp ≠ 0b10 ∧ Memory.wf r.hout = true ∧ (r.st ≠ .ok → r = failed r.st) := by
  have okWith : ∀ (q r : Value) (c : BitVec 2), c ≠ 0b10 →
      (⟨.ok, q, r, c, Memory.blank⟩ : Results).cmp ≠ 0b10 ∧ Memory.wf Memory.blank = true ∧
        (Status.ok ≠ .ok → (⟨.ok, q, r, c, Memory.blank⟩ : Results) = failed .ok) :=
    fun _ _ _ hc => ⟨hc, rfl, fun h => absurd rfl h⟩
  have failedWith : ∀ st : Status, (failed st).cmp ≠ 0b10 ∧ Memory.wf (failed st).hout = true ∧
      ((failed st).st ≠ .ok → failed st = failed (failed st).st) :=
    fun _ => ⟨by rintro ⟨⟩, rfl, fun _ => rfl⟩
  cases i <;> simp only [commandResult] at h
  case tohex hinP outP =>
    obtain ⟨r', hr, hc⟩ := tohexResult_ok outP a
    rw [hr] at h; cases h
    rcases hc with ⟨-, rfl⟩ | ⟨-, m, rfl, hw, -⟩
    · exact failedWith _
    · exact ⟨by rintro ⟨⟩, hw, fun h => absurd rfl h⟩
  case fromhex hinP outP =>
    rw [fromhexResult_ok] at h; cases h
    split_ifs
    · exact okWith _ _ _ (by decide)
    all_goals exact failedWith _
  case ucmp => cases h; exact okWith _ _ _ (enc2_named _)
  case scmp => cases h; exact okWith _ _ _ (enc2_named _)
  case ushl => cases h; unfold ushlResult; split_ifs <;> first | exact failedWith _ | exact okWith _ _ _ (by decide)
  case ushr => cases h; unfold ushrResult; split_ifs <;> first | exact failedWith _ | exact okWith _ _ _ (by decide)
  case lastset => cases h; unfold lastsetResult; split_ifs <;> first | exact failedWith _ | exact okWith _ _ _ (by decide)
  all_goals cases h; exact okWith _ _ _ (by decide)

end Sys2Proof.Machine
end

