-- ==== Sys2Proof/Laws/Hex.lean ====
section
/-! SUPPORT. A limb written as digits and read back: the base-16 numeral of 44_hex_codec.md rule R195 has the digits it was made of. -/

namespace Sys2Proof.Machine

/-- The digits of a numeral, least significant first. -/
theorem ofDigits_digit {p : Nat} (ds : List Nat) (h : ∀ d ∈ ds, d < p) (i : Nat) :
    Nat.ofDigits p ds / p ^ i % p = ds.getD i 0 := by
  induction ds generalizing i with
  | nil => simp
  | cons d rest ih =>
    have hd : d < p := h d (by simp)
    cases i with
    | zero => simp [Nat.ofDigits_cons, Nat.mod_eq_of_lt hd]
    | succ j =>
      rw [pow_succ', ← Nat.div_div_eq_div_mul, Nat.ofDigits_cons, Nat.add_mul_div_left _ _ (by omega),
        Nat.div_eq_of_lt hd, Nat.zero_add, ih (fun l hl => h l (by simp [hl]))]
      simp

/-- A numeral as a sum. -/
theorem ofDigits_ofFn (p n : Nat) (b : Fin n → Nat) :
    Nat.ofDigits p (List.ofFn b) = ∑ i : Fin n, b i * p ^ i.val := by
  induction n with
  | zero => simp
  | succ n ih =>
    rw [List.ofFn_succ, Nat.ofDigits_cons, ih, Fin.sum_univ_succ, Finset.mul_sum]
    simp only [Fin.val_zero, pow_zero, mul_one, Fin.val_succ, pow_succ', add_right_inj]
    exact Finset.sum_congr rfl fun i _ => by ring

/-- The sum of rule R195 fits a limb, and its nibbles are its digits. -/
theorem digitSum_nibbles (a : Fin 16 → Nat) (h : ∀ k, a k < 16) :
    ((List.finRange 16).map fun k => a k * 16 ^ (15 - k.val)).sum < 2 ^ 64 ∧
      ∀ k : Fin 16, ((List.finRange 16).map fun k => a k * 16 ^ (15 - k.val)).sum / 2 ^ (60 - 4 * k.val) % 2 ^ 4 = a k := by
  have hsum : ((List.finRange 16).map fun k => a k * 16 ^ (15 - k.val)).sum =
      Nat.ofDigits 16 (List.ofFn fun k : Fin 16 => a k.rev) := by
    rw [ofDigits_ofFn, ← Fin.sum_univ_def, ← Equiv.sum_comp Fin.revPerm]
    refine Finset.sum_congr rfl fun k _ => ?_
    simp only [Fin.revPerm_apply, Fin.val_rev]
    congr 2; omega
  have hd : ∀ d ∈ List.ofFn fun k : Fin 16 => a k.rev, d < 16 := by
    intro d hd
    obtain ⟨k, rfl⟩ := List.mem_ofFn.1 hd
    exact h _
  rw [hsum]
  constructor
  · have hlt := Nat.ofDigits_lt_base_pow_length (by norm_num) hd
    rw [List.length_ofFn] at hlt
    exact lt_of_lt_of_eq hlt (by norm_num)
  · intro k
    rw [show 60 - 4 * k.val = 4 * (15 - k.val) by omega, pow_mul, show (2 : Nat) ^ 4 = 16 by norm_num,
      ofDigits_digit _ hd, List.getD_eq_getElem _ _ (by rw [List.length_ofFn]; omega), List.getElem_ofFn]
    congr 1; apply Fin.ext; simp only [Fin.val_rev]; omega

/-- `nibble` inverts `digit`. -/
theorem nibble_digit (d : BitVec 4) : nibble (digit d) = some d := by
  revert d; decide

theorem digitValue_digit (d : BitVec 4) : digitValue (digit d) = d.toNat := by
  rw [digitValue, nibble_digit]; rfl

/-- The nibbles of a limb read from digits are those digits. -/
theorem hexLimb_nibble (f : Fin 16 → BitVec 4) (k : Fin 16) :
    (hexLimb fun k => digit (f k)).extractLsb' (60 - 4 * k) 4 = f k := by
  apply BitVec.eq_of_toNat_eq
  obtain ⟨p, q⟩ := digitSum_nibbles (fun k => (f k).toNat) fun k => (f k).isLt
  unfold hexLimb
  simp only [digitValue_digit]
  generalize ((List.finRange 16).map fun k => (f k).toNat * 16 ^ (15 - k.val)).sum = sum at p q ⊢
  rw [BitVec.extractLsb'_toNat, BitVec.toNat_ofNat, Nat.shiftRight_eq_div_pow, Nat.mod_eq_of_lt p, q]

end Sys2Proof.Machine
end

