-- ==== Sys2Proof/Laws/PerInstr.lean ====
section
/-! SUPPORT. Families of statements about every command as syntax, one lemma per constructor. -/

namespace Sys2Proof.Laws.WordShape

/-- The command's word is legal (30_encoding.md rule R88), and the fields of its word are the fields it was made of: `OP` as in rule R87, the presence
bits its own, `RSV` zero (rule R80). -/
def Statement (i : Instr) : Prop :=
  (rawOfInstr i).wellFormed = true ∧ rawOfWord (encode i) = rawOfInstr i

theorem ucmp (hinP outP : Bool) : Statement (.ucmp hinP outP) := by
  cases hinP <;> cases outP <;> exact ⟨by decide, by decide⟩

theorem uadd (hinP outP : Bool) : Statement (.uadd hinP outP) := by
  cases hinP <;> cases outP <;> exact ⟨by decide, by decide⟩

theorem usub (hinP outP : Bool) : Statement (.usub hinP outP) := by
  cases hinP <;> cases outP <;> exact ⟨by decide, by decide⟩

theorem umul (hinP outP : Bool) : Statement (.umul hinP outP) := by
  cases hinP <;> cases outP <;> exact ⟨by decide, by decide⟩

theorem udiv (hinP outP : Bool) : Statement (.udiv hinP outP) := by
  cases hinP <;> cases outP <;> exact ⟨by decide, by decide⟩

theorem ushl (hinP outP : Bool) : Statement (.ushl hinP outP) := by
  cases hinP <;> cases outP <;> exact ⟨by decide, by decide⟩

theorem ushr (hinP outP : Bool) : Statement (.ushr hinP outP) := by
  cases hinP <;> cases outP <;> exact ⟨by decide, by decide⟩

theorem clz64 (hinP outP : Bool) : Statement (.clz64 hinP outP) := by
  cases hinP <;> cases outP <;> exact ⟨by decide, by decide⟩

theorem lastset (hinP outP : Bool) : Statement (.lastset hinP outP) := by
  cases hinP <;> cases outP <;> exact ⟨by decide, by decide⟩

theorem tohex (hinP outP : Bool) : Statement (.tohex hinP outP) := by
  cases hinP <;> cases outP <;> exact ⟨by decide, by decide⟩

theorem fromhex (hinP outP : Bool) : Statement (.fromhex hinP outP) := by
  cases hinP <;> cases outP <;> exact ⟨by decide, by decide⟩

theorem screate (hinP outP : Bool) : Statement (.screate hinP outP) := by
  cases hinP <;> cases outP <;> exact ⟨by decide, by decide⟩

theorem scrneg (hinP outP : Bool) : Statement (.scrneg hinP outP) := by
  cases hinP <;> cases outP <;> exact ⟨by decide, by decide⟩

theorem suabs (hinP outP : Bool) : Statement (.suabs hinP outP) := by
  cases hinP <;> cases outP <;> exact ⟨by decide, by decide⟩

theorem scmp (hinP outP : Bool) : Statement (.scmp hinP outP) := by
  cases hinP <;> cases outP <;> exact ⟨by decide, by decide⟩

theorem sadd (hinP outP : Bool) : Statement (.sadd hinP outP) := by
  cases hinP <;> cases outP <;> exact ⟨by decide, by decide⟩

theorem ssub (hinP outP : Bool) : Statement (.ssub hinP outP) := by
  cases hinP <;> cases outP <;> exact ⟨by decide, by decide⟩

theorem smul (hinP outP : Bool) : Statement (.smul hinP outP) := by
  cases hinP <;> cases outP <;> exact ⟨by decide, by decide⟩

theorem sdiv (hinP outP : Bool) : Statement (.sdiv hinP outP) := by
  cases hinP <;> cases outP <;> exact ⟨by decide, by decide⟩

end Sys2Proof.Laws.WordShape
end

