-- ==== Sys2Proof/Laws/Run.lean ====
section
/-! SUPPORT. Runs of the core as runs of `step`; proofs cite these and do not unfold `Host.Core.run` at `core`. -/

namespace Sys2Proof.Machine

/-- No steps, for any machine. -/
theorem run_zero (m : Host.Core) (s : m.State) : m.run 0 s = .next s := rfl

/-- One step and then the others, for any machine. -/
theorem run_succ {m : Host.Core} {k : Nat} {s s' : m.State} (h : m.step s = .next s') : m.run (k + 1) s = m.run k s' := by
  rw [Host.Core.run, h]

theorem core_run_zero (s : State) : Sys2Proof.core.run 0 s = .next s := run_zero Sys2Proof.core s

theorem core_run_succ {k : Nat} {s s' : State} (h : step s = .next s') :
    Sys2Proof.core.run (k + 1) s = Sys2Proof.core.run k s' := run_succ (m := Sys2Proof.core) h

/-- With a command in progress and no reset at the coming edge, a step is that command's edge. -/
theorem step_busy {s : State} (h1 : (sample s).rst = false) (h2 : s.busy = true) :
    step s = runCommand (advanceInputs s) := by
  rcases clockEdge_cases s with h | h | h | h
  · exact absurd h.1 (by simp [h1])
  · exact absurd h.2.1 (by simp [h2])
  · exact h.2.2
  · exact absurd h.2.1 (by simp [h2])

end Sys2Proof.Machine
end

