-- ==== Sys2Proof/Tests/Slice0.lean ====
section
/-! SUPPORT. Tests of one step each, and for every statement with hypotheses a state and operands that meet them. Expected values are those of
spec/95_test_vectors.md, named by their row, or worked out by hand from the rule a test cites. -/

namespace Sys2Proof.Tests

open Sys2Proof Sys2Proof.Machine

set_option Elab.async false

/-! ### Well-formed and ill-formed words -/

/-- 30_encoding.md rule R88: UADD with both presence bits set is well-formed. -/
theorem test_wellformed_accepts : (⟨0x02, true, true, 0⟩ : RawCommand).wellFormed = true := by decide

/-- 30_encoding.md rule R84: UADD with a reserved bit set is refused, by the check of `RSV` alone. -/
theorem test_illformed_rsv : (⟨0x02, false, false, 1⟩ : RawCommand).wellFormed = false ∧
    (⟨0x02, false, false, 1⟩ : RawCommand).opAssigned = true := by decide

/-- 30_encoding.md rule R88: the ends of each gap of unassigned `OP` values are refused, by the check of `OP` alone. -/
theorem test_illformed_op : ([0x00, 0x0C, 0x0F, 0x18, 0xFF].all fun op =>
    !(⟨op, false, false, 0⟩ : RawCommand).wellFormed && (⟨op, false, false, 0⟩ : RawCommand).rsvClear) = true := by decide

/-! ### Decoding -/

/-- The words of 30_encoding.md rule R87, field by field as rule R80 lays them out: `RSV` 000000, `OUT_P`, `HIN_P`, `OP`. -/
theorem test_decode_unsigned :
    decode 0b000000_0_0_00000001 = .ok (.ucmp false false) ∧ decode 0b000000_0_1_00000010 = .ok (.uadd true false) ∧
    decode 0b000000_1_0_00000011 = .ok (.usub false true) ∧ decode 0b000000_1_1_00000100 = .ok (.umul true true) ∧
    decode 0b000000_0_0_00000101 = .ok (.udiv false false) := by decide

theorem test_decode_shift :
    decode 0b000000_0_1_00000110 = .ok (.ushl true false) ∧ decode 0b000000_1_0_00000111 = .ok (.ushr false true) ∧
    decode 0b000000_0_0_00001000 = .ok (.clz64 false false) ∧ decode 0b000000_1_1_00001001 = .ok (.lastset true true) := by decide

theorem test_decode_hex :
    decode 0b000000_1_0_00001010 = .ok (.tohex false true) ∧ decode 0b000000_0_1_00001011 = .ok (.fromhex true false) := by decide

theorem test_decode_signed :
    decode 0b000000_0_0_00010000 = .ok (.screate false false) ∧ decode 0b000000_0_1_00010001 = .ok (.scrneg true false) ∧
    decode 0b000000_1_0_00010010 = .ok (.suabs false true) ∧ decode 0b000000_1_1_00010011 = .ok (.scmp true true) ∧
    decode 0b000000_0_0_00010100 = .ok (.sadd false false) ∧ decode 0b000000_0_1_00010101 = .ok (.ssub true false) ∧
    decode 0b000000_1_0_00010110 = .ok (.smul false true) ∧ decode 0b000000_1_1_00010111 = .ok (.sdiv true true) := by decide

/-- 30_encoding.md rules R84, R88: E1, E4, E5, E7 and E9 name the reason they are refused for. -/
theorem test_decode_refuses :
    decode 0x0000 = .error (.unassignedOp 0x00) ∧ decode 0x000F = .error (.unassignedOp 0x0F) ∧
    decode 0x00FF = .error (.unassignedOp 0xFF) ∧ decode 0x0401 = .error (.reservedBits 1) ∧
    decode 0x8002 = .error (.reservedBits 32) := by decide

/-- No two rows of the opcode map share an `OP`, so with one mask (0xFCFF) no two rows of the table overlap. -/
theorem test_opcodes_distinct : (opcodeTable.map (·.1)).Nodup ∧ opcodeTable.length = 19 := by decide

/-- A table word above its bits is cut off, and read by the same decoder. -/
theorem test_table_word : decodeTableWord 16 0x10005 = some (.udiv false false) ∧ decodeTableWord 16 0x0018 = none := by decide

/-! ### One edge -/

/-- A command accepted after reset, with these latches. -/
def loaded (cmd : CmdWord) (a b : Value) (amt : Amount) (hin : Memory) : State :=
  { State.reset with busy := true, cmdL := cmd, aL := a, bL := b, amtL := amt, hinL := hin }

/-- The next edge completes the command with these results. -/
def completes (s : State) (status : BitVec 3) (q r : Value) (cmp : BitVec 2) (hex : Memory) : Bool :=
  match step s with
  | .next t => t.done && !t.busy && t.resStatus == status && t.resQ == q && t.resR == r && t.resCmp == cmp && t.resHex == hex
  | _ => false

/-- After the next edge the loop iterates, with these values in `DV_N`, `DV_D`, `DV_Q`, `DV_CNT`, `DV_QNEG`, `DV_RNEG`. -/
def iterates (s : State) (n d q : Value) (cnt : BitVec 8) (qneg rneg : Bool) : Bool :=
  match step s with
  | .next t => t.busy && t.dvRun && t.dvN == n && t.dvD == d && t.dvQ == q && t.dvCnt == cnt && t.dvQneg == qneg && t.dvRneg == rneg
  | _ => false

/-- The windows of H10 and H12, as listed cells. -/
def windowH10 : Memory :=
  [(0, 0x30), (1, 0x78), (2, 0x66), (3, 0x65), (4, 0x64), (5, 0x63), (6, 0x62), (7, 0x61), (8, 0x39), (9, 0x38), (10, 0x37)]
  ++ [(11, 0x36), (12, 0x35), (13, 0x34), (14, 0x33), (15, 0x32), (16, 0x31), (17, 0x30), (18, 0x30), (19, 0x31), (20, 0x32)]
  ++ [(21, 0x33), (22, 0x34), (23, 0x35), (24, 0x36), (25, 0x37), (26, 0x38), (27, 0x39), (28, 0x61), (29, 0x62), (30, 0x63)]
  ++ [(31, 0x64), (32, 0x65), (33, 0x66)]

/-- A2: equal high limbs, the low limbs decide. -/
theorem test_ucmp_low : completes (loaded 0x0001 (pair 1 5) (pair 2 5) 0 []) 0 0 0 0b11 [] = true := by decide +kernel
/-- G17: MAX128 is above 0. -/
theorem test_ucmp_unsigned : completes (loaded 0x0001 max128 0 0 []) 0 0 0 0b01 [] = true := by decide +kernel
/-- A5: carry into the high limb. -/
theorem test_uadd_carry : completes (loaded 0x0002 (pair 0xFFFFFFFFFFFFFFFF 0) 1 0 []) 0 (pair 0 1) 0 0 [] = true := by decide +kernel
/-- A6: wrap to zero. -/
theorem test_uadd_wraps : completes (loaded 0x0002 max128 1 0 []) 0 0 0 0 [] = true := by decide +kernel
/-- A10: borrow from the high limb. -/
theorem test_usub_borrow : completes (loaded 0x0003 (pair 0 1) 1 0 []) 0 (pair 0xFFFFFFFFFFFFFFFF 0) 0 0 [] = true := by decide +kernel
/-- A13: operand order, no low borrow. -/
theorem test_usub_order : completes (loaded 0x0003 (pair 3 0) (pair 0 1) 0 []) 0 (pair 3 0xFFFFFFFFFFFFFFFF) 0 0 [] = true := by decide +kernel
/-- A15: the cross terms. -/
theorem test_umul_cross : completes (loaded 0x0004 (pair 2 3) (pair 5 7) 0 []) 0 (pair 0xA 0x1D) 0 0 [] = true := by decide +kernel
/-- A16: the carry limb of the limb product. -/
theorem test_umul_carry : completes (loaded 0x0004 (pair 0xFFFFFFFFFFFFFFFF 0) (pair 0xFFFFFFFFFFFFFFFF 0) 0 []) 0 (pair 1 0xFFFFFFFFFFFFFFFE) 0 0 [] = true := by decide +kernel
/-- D2 and D5: divisor zero; divisor above the dividend. -/
theorem test_udiv_special : completes (loaded 0x0005 (pair 0x7B 0x1C8) 0 0 []) 0 0 0 0 [] = true ∧
    completes (loaded 0x0005 5 7 0 []) 0 0 5 0 [] = true := by decide +kernel
/-- D12, 7 / 2, by 42_unsigned_divide.md rule R154: setup with shift 1, then one iteration, then the last. -/
theorem test_udiv_edges : iterates (loaded 0x0005 7 2 0 []) 7 4 0 2 false false = true ∧
    iterates ({ loaded 0x0005 7 2 0 [] with dvN := 7, dvD := 4, dvCnt := 2, dvRun := true } : State) 3 2 1 1 false false = true ∧
    completes ({ loaded 0x0005 7 2 0 [] with dvN := 3, dvD := 2, dvQ := 1, dvCnt := 1, dvRun := true } : State) 0 3 1 0 [] = true := by decide +kernel
/-- S4: bit 63 crosses into the high limb. -/
theorem test_ushl_crosses : completes (loaded 0x0006 (pair 0x8000000000000001 0) 0 1 []) 0 (pair 2 1) 0 0 [] = true := by decide +kernel
/-- X5 and S8: 127 is the last amount, 128 is out of range. -/
theorem test_ushl_edge : completes (loaded 0x0006 max128 0 127 []) 0 (pair 0 0x8000000000000000) 0 0 [] = true ∧
    completes (loaded 0x0006 1 0 128 []) 3 0 0 0 [] = true := by decide +kernel
/-- S13: zero fill, not sign fill. -/
theorem test_ushr_zero_fill : completes (loaded 0x0007 (pair 0 0x8000000000000000) 0 1 []) 0 (pair 0 0x4000000000000000) 0 0 [] = true := by decide +kernel
/-- S14, and by 43_shift_bitlen.md rule R174 an amount of -1. -/
theorem test_ushr_edge : completes (loaded 0x0007 (pair 0x123456789ABCDEF 0xFEDCBA9876543210) 0 4 []) 0 (pair 0x123456789ABCDE 0xFEDCBA987654321) 0 0 [] = true ∧
    completes (loaded 0x0007 1 0 0xFFFFFFFF []) 3 0 0 0 [] = true := by decide +kernel
/-- S20: the high limb is ignored. -/
theorem test_clz64_low : completes (loaded 0x0008 (pair 0xFFFFFFFF 0xFFFFFFFFFFFFFFFF) 0 0 []) 0 0x20 0 0 [] = true := by decide +kernel
/-- S17: zero. -/
theorem test_clz64_zero : completes (loaded 0x0008 0 0 0 []) 0 64 0 0 [] = true := by decide +kernel
/-- S23: the low bit of the high limb. -/
theorem test_lastset_high : completes (loaded 0x0009 (pair 0 1) 0 0 []) 0 64 0 0 [] = true := by decide +kernel
/-- S26: zero is an error. -/
theorem test_lastset_zero : completes (loaded 0x0009 0 0 0 []) 4 0 0 0 [] = true := by decide +kernel
/-- H3: high limb first, lowercase. -/
theorem test_tohex : completes (loaded 0x020A (pair 0x123456789ABCDEF 0xFEDCBA9876543210) 0 0 []) 0 0 0 0 windowH10 = true := by decide +kernel
/-- H6: no buffer. -/
theorem test_tohex_null : completes (loaded 0x000A 5 0 0 []) 1 0 0 0 [] = true := by decide +kernel
/-- H10: high limb first. -/
theorem test_fromhex : completes (loaded 0x030B 0 0 0 windowH10) 0 (pair 0x123456789ABCDEF 0xFEDCBA9876543210) 0 0 [] = true := by decide +kernel
/-- H8, H21: "ff" is a format error, but not where the decode slot is absent. -/
theorem test_fromhex_errors : completes (loaded 0x030B 0 0 0 [(0, 0x66), (1, 0x66)]) 2 0 0 0 [] = true ∧
    completes (loaded 0x010B 0 0 0 [(0, 0x66), (1, 0x66)]) 1 0 0 0 [] = true := by decide +kernel
/-- G2: the pattern is copied. -/
theorem test_screate : completes (loaded 0x0010 (pair 0 0x8000000000000000) 0 0 []) 0 (pair 0 0x8000000000000000) 0 0 [] = true := by decide +kernel
/-- G4: the negation of (20, 27). -/
theorem test_scrneg : completes (loaded 0x0011 (pair 0x14 0x1B) 0 0 []) 0 (pair 0xFFFFFFFFFFFFFFEC 0xFFFFFFFFFFFFFFE4) 0 0 [] = true := by decide +kernel
/-- G8: the magnitude of -2^127. -/
theorem test_suabs_least : completes (loaded 0x0012 (pair 0 0x8000000000000000) 0 0 []) 0 (pair 0 0x8000000000000000) 0 0 [] = true := by decide +kernel
/-- G7: the magnitude of -1. -/
theorem test_suabs_minus_one : completes (loaded 0x0012 max128 0 0 []) 0 1 0 0 [] = true := by decide +kernel
/-- G13: -2^127 is below 2^127 - 1. -/
theorem test_scmp_signed : completes (loaded 0x0013 (pair 0 0x8000000000000000) (pair 0xFFFFFFFFFFFFFFFF 0x7FFFFFFFFFFFFFFF) 0 []) 0 0 0 0b11 [] = true := by decide +kernel
/-- G15: the low limbs compare unsigned. -/
theorem test_scmp_low_unsigned : completes (loaded 0x0013 (pair 0x8000000000000000 0) 1 0 []) 0 0 0 0b01 [] = true := by decide +kernel
/-- G18: 2^127 - 1 + 1 wraps. -/
theorem test_sadd_wraps : completes (loaded 0x0014 (pair 0xFFFFFFFFFFFFFFFF 0x7FFFFFFFFFFFFFFF) 1 0 []) 0 (pair 0 0x8000000000000000) 0 0 [] = true := by decide +kernel
/-- G20: -2^127 - 1 wraps. -/
theorem test_ssub_wraps : completes (loaded 0x0015 (pair 0 0x8000000000000000) 1 0 []) 0 (pair 0xFFFFFFFFFFFFFFFF 0x7FFFFFFFFFFFFFFF) 0 0 [] = true := by decide +kernel
/-- G23: -3 times -4. -/
theorem test_smul_signs : completes (loaded 0x0016 (pair 0xFFFFFFFFFFFFFFFD 0xFFFFFFFFFFFFFFFF) (pair 0xFFFFFFFFFFFFFFFC 0xFFFFFFFFFFFFFFFF) 0 []) 0 12 0 0 [] = true := by decide +kernel
/-- G33, G34 and G35: divisor zero; of greater magnitude; of equal magnitude and other sign. -/
theorem test_sdiv_special : completes (loaded 0x0017 (-5) 0 0 []) 0 0 0 0 [] = true ∧
    completes (loaded 0x0017 3 (-7) 0 []) 0 0 3 0 [] = true ∧
    completes (loaded 0x0017 (-9) 9 0 []) 0 (-1) 0 0 [] = true := by decide +kernel
/-- G27, -7 / 2, by 42_unsigned_divide.md rule R154: setup with both signs, and the last iteration, which negates both. -/
theorem test_sdiv_edges : iterates (loaded 0x0017 (-7) 2 0 []) 7 4 0 2 true true = true ∧
    completes ({ loaded 0x0017 (-7) 2 0 [] with dvN := 3, dvD := 2, dvQ := 1, dvCnt := 1, dvQneg := true, dvRneg := true, dvRun := true } : State) 0 (-3) (-1) 0 [] = true := by decide +kernel
/-- E10: a division's `OP` with `RSV != 0` is illegal, at one edge. -/
theorem test_illegal_division : completes (loaded 0x0405 max128 1 0 []) 7 0 0 0 [] = true := by decide +kernel
/-- X1 to X3: illegality comes before every other error. -/
theorem test_illegal_first : ([0x0406, 0x0409, 0x040A].all fun w => completes (loaded w 0 0 500 []) 7 0 0 0 []) = true := by
  decide +kernel

/-- Placed by the host's hook, a command is what the very next step runs. -/
theorem test_placed_word_runs : completes (State.reset.withFetchWord 16 0x0008) 0 64 0 0 [] = true ∧
    completes (State.reset.withFetchWord 16 0x0000) 7 0 0 0 [] = true := by decide +kernel

/-- The pins of an offer of UDIV 7, 2. -/
def offer : Pins := ⟨false, true, 0x0005, 7, 2, 0, 0⟩
/-- The pins of a reset, with an offer beside it. -/
def resetPins : Pins := { offer with rst := true }

/-- 40_execution.md rule R117: an offer to the idle block is latched. -/
theorem test_accept : (match step { State.reset with inputs := [offer], done := true, resQ := 9 } with
    | .next t => some (t.busy, t.done, t.cmdL, t.aL, t.bL, t.resQ) | _ => none) = some (true, false, 0x0005, 7, 2, 9) := by decide +kernel
/-- 40_execution.md rule R116: reset comes before an offer and before the command in progress. -/
theorem test_reset_first : (match step { State.reset with inputs := [resetPins] } with
      | .next t => some t | _ => none) = some State.reset ∧
    (match step { loaded 0x0002 1 1 0 [] with inputs := [resetPins], resQ := 9 } with
      | .next t => some t | _ => none) = some State.reset := by decide +kernel
/-- 20_memory.md rule R64: byte 1 of the window is bits 15 to 8 of the port, both ways. -/
theorem test_port_bytes : Memory.get (memoryOfPort 0x7830) 1 = 0x78 ∧
    (portOfMemory [(0, 0x30), (1, 0x78)]).extractLsb' 8 8 = 0x78 := by decide +kernel
/-- 20_memory.md rule R61: the last index is 34; the next one faults. -/
theorem test_index_outside : (memWrite [] 34 1 fun _ => 7).toOption = some [(34, 7)] ∧
    (memWrite [] 35 1 fun _ => 7).toOption = none := by decide +kernel

/-! ### What meets the hypotheses of each statement

A theorem `test_meets_<statement>` shows hypotheses met, clause by clause where there are several. -/

theorem test_meets_decode_and_encode_agree : decode 0x0301 = .ok (.ucmp true true) := by decide

theorem test_meets_legal_words : decode 0x0317 = .ok (.sdiv true true) ∧ ¬ illegalWord 0x0001 ∧ ¬ illegalWord 0x000B ∧
    ¬ illegalWord 0x0010 ∧ ¬ illegalWord 0x0317 := by decide

theorem test_meets_step_runs : (sample (loaded 0x0002 1 2 0 [])).rst = false ∧ (loaded 0x0002 1 2 0 []).busy = true ∧
    decode (loaded 0x0002 1 2 0 []).cmdL = .ok (.uadd false false) := by decide

theorem test_meets_reset_edge : (sample { State.reset with inputs := [resetPins] }).rst = true := by decide

theorem test_meets_accept : ({ State.reset with inputs := [offer] } : State).inputs = offer :: [] ∧ offer.rst = false ∧
    ({ State.reset with inputs := [offer] } : State).busy = false ∧ offer.reqValid = true := ⟨rfl, rfl, rfl, rfl⟩

theorem test_meets_idle_edge : (sample State.reset).rst = false ∧ State.reset.busy = false ∧ (sample State.reset).reqValid = false := by
  decide

theorem test_meets_offer_while_busy : (loaded 0x0005 7 2 0 []).busy = true ∧ offer.rst = false ∧ Pins.idle.rst = false ∧
    offer ≠ Pins.idle := by decide

theorem test_meets_illegal_word : (sample (loaded 0x0405 1 1 0 [])).rst = false ∧ (loaded 0x0405 1 1 0 []).busy = true ∧
    ([0x0000, 0x000C, 0x000F, 0x0018, 0x00FF, 0x0405, 0x8002].all fun w => decide (illegalWord w)) = true := by decide

/-- An offer of an illegal word to the idle block. -/
theorem test_meets_illegal_offer : { offer with reqCmd := 0x0405 }.rst = false ∧ State.reset.busy = false ∧
    { offer with reqCmd := 0x0405 }.reqValid = true ∧ illegalWord { offer with reqCmd := 0x0405 }.reqCmd := by decide

/-- A legal command that is no division, and an illegal word with a division's `OP`. -/
theorem test_meets_single_edge : (sample (loaded 0x0002 1 2 0 [])).rst = false ∧ (loaded 0x0002 1 2 0 []).busy = true ∧
    (∀ h o, decode 0x0002 ≠ .ok (.udiv h o)) ∧ (∀ h o, decode 0x0002 ≠ .ok (.sdiv h o)) ∧
    (∀ h o, decode 0x0405 ≠ .ok (.udiv h o)) ∧ ∀ h o, decode 0x0405 ≠ .ok (.sdiv h o) := by
  refine ⟨rfl, rfl, ?_, ?_, ?_, ?_⟩ <;> intro h o <;> cases h <;> cases o <;> decide

/-- An edge that completes a command and changes the results, and one that changes none. -/
theorem test_meets_results_change :
    step (loaded 0x0002 1 2 0 []) = .next (wrote 0 3 0 0 [] (loaded 0x0002 1 2 0 [])) ∧ step State.reset = .next State.reset :=
  ⟨rfl, rfl⟩

theorem test_meets_latches_alone : exec (.uadd false false) (loaded 0x0002 1 2 0 []) = .next (wrote 0 3 0 0 [] (loaded 0x0002 1 2 0 [])) ∧
    divOperands (.uadd false false) 1 2 = none := ⟨rfl, rfl⟩

/-- UADD of 1 and 2, completed. -/
def added : State := wrote 0 3 0 0 [] (loaded 0x0002 1 2 0 [])

theorem added_inv : Inv added :=
  ⟨rfl, rfl, by decide, by decide, by decide, by decide, by decide, by decide, (fun h => by cases h),
    fun _ => ⟨uaddResult 1 2, rfl, rfl⟩⟩

/-- UDIV of 7 by 2 after its setup edge. -/
def dividing : State := { loaded 0x0005 7 2 0 [] with dvN := 7, dvD := 4, dvCnt := 2, dvRun := true }

theorem dividing_inv : Inv dividing :=
  ⟨rfl, rfl, by decide, by decide, by decide, by decide, by decide, by decide,
    fun _ => ⟨7, 2, ⟨.udiv false false, by decide, rfl⟩, by decide, by decide, by decide +kernel⟩, (fun h => by cases h)⟩

theorem test_meets_edge_keeps_invariant : Inv dividing ∧ (∃ t, step dividing = .next t) ∧ Inv added ∧ step added = .next added :=
  ⟨dividing_inv, ⟨_, rfl⟩, added_inv, rfl⟩

/-- UDIV of 7 by 2 just accepted, and the same latches after another history, with offers before the completing edge and a reset just after it. -/
theorem test_meets_results_depend :
    let s := loaded 0x0005 7 2 0 []
    let s' := { s with dvN := 5, dvQ := 9, resStatus := 4, resQ := 3, inputs := [offer, Pins.idle, offer, resetPins] }
    s.busy = true ∧ s'.busy = true ∧ s.dvRun = false ∧ s'.dvRun = false ∧
    s.cmdL = s'.cmdL ∧ s.aL = s'.aL ∧ s.bL = s'.bL ∧ s.amtL = s'.amtL ∧ s.hinL = s'.hinL ∧
    noReset (latency s.cmdL s.aL s.bL) s.inputs ∧ noReset (latency s.cmdL s.aL s.bL) s'.inputs ∧
    latency s.cmdL s.aL s.bL = 3 ∧ resultRegs s ≠ resultRegs s' := by decide +kernel

theorem test_meets_accepted_command : ({ added with inputs := [offer, Pins.idle] } : State).inputs = offer :: [Pins.idle] ∧
    added.busy = false ∧ added.dvRun = false ∧ offer.rst = false ∧ offer.reqValid = true ∧
    noReset (latency offer.reqCmd offer.reqA offer.reqB) [Pins.idle] ∧ latency offer.reqCmd offer.reqA offer.reqB = 3 := by decide +kernel

/-- D1, D12, D11 and D6: latency 67, 3, 2 and 1. -/
theorem test_meets_latency : illegalWord 0x0405 ∧ divOperands (.ushl false false) 1 1 = none ∧
    divOperands (.udiv false false) 7 2 = some (7, 2, false, false) ∧ latency 0x0005 (pair 0x14 0x1B) 9 = 67 ∧
    latency 0x0005 7 2 = 3 ∧ latency 0x0005 max128 (pair 0xFFFFFFFFFFFFFFFF 0xFFFFFFFFFFFFFFFE) = 2 ∧
    latency 0x0005 (pair 9 9) (pair 9 9) = 1 := by decide +kernel

/-- H6, H8, S8, S26, E1 and E2: each status occurs. -/
theorem test_meets_status :
    commandFn 0x000A 5 0 0 [] = .ok (failed .errNull) ∧ commandFn 0x030B 0 0 0 [(0, 0x66), (1, 0x66)] = .ok (failed .errFormat) ∧
    commandFn 0x0006 1 0 128 [] = .ok (failed .errRange) ∧ commandFn 0x0009 0 0 0 [] = .ok (failed .errZero) ∧
    commandFn 0x0000 0 0 0 [] = .ok (failed .errIllegal) ∧ commandFn 0x0001 5 5 0 [] = .ok okDefaults := by
  refine ⟨rfl, ?_, rfl, ?_, rfl, ?_⟩ <;> rfl

/-- Both ends of the shifter's range (43_shift_bitlen.md rules R170, R171). -/
theorem test_meets_shifts : (0 : Nat) ≤ 127 ∧ (127 : Nat) ≤ 127 ∧ shl128 (pair 0 1) 0 = pair 0 1 ∧
    shr128 (pair 0 0x8000000000000000) 127 = 1 := by decide +kernel

theorem test_meets_leading_zeros : (0x8000000000000000 : Limb).getLsbD 63 = true ∧
    (∀ j, 63 < j → (0x8000000000000000 : Limb).getLsbD j = false) ∧ (1 : Limb).getLsbD 0 = true ∧
    ∀ j, 0 < j → (1 : Limb).getLsbD j = false := by
  refine ⟨by decide, fun j hj => BitVec.getLsbD_of_ge _ _ hj, by decide, fun j hj => ?_⟩
  rw [show (1 : Limb) = 1#64 from rfl, BitVec.getLsbD_one]
  simp only [show j ≠ 0 by omega, decide_false, Bool.and_false]

theorem test_meets_highest_set_bit : (1 : Value) ≠ 0 ∧ pair 0 1 ≠ 0 ∧ max128 ≠ 0 ∧ 2 ^ 64 ≤ (pair 0 1).toNat ∧
    (pair 0 1).toNat < 2 ^ (64 + 1) := by decide

theorem test_meets_division : (2 : Value) ≠ 0 ∧ (2 : Value).toNat < (7 : Value).toNat ∧ (1 : Value).toNat < max128.toNat ∧
    (2 : Value).toNat ≠ 0 := by decide

/-- G27 and G31: an ordinary quotient, and the one that does not fit. -/
theorem test_meets_signed_division : (2 : Value).toInt ≠ 0 ∧ ¬ ((-7 : Value).toInt = -2 ^ 127 ∧ (2 : Value).toInt = -1) ∧
    (pair 0 0x8000000000000000).toInt = -2 ^ 127 ∧ max128.toInt = -1 := by decide

/-- K2 and K3: the last value of the round trip and the first above it. -/
theorem test_meets_sign_round_trip : (pair 0 0x8000000000000000).toNat ≤ 2 ^ 127 ∧ 2 ^ 127 < (pair 1 0x8000000000000000).toNat := by decide

theorem test_meets_hex_round_trip : hexvalid (fun i => Memory.get windowH10 i) = true := by decide +kernel

/-- H1 with a byte after its terminator, and H8 with more: a string of length 34 and one of another length. -/
theorem test_meets_window : (0 : Byte) ∉ [0x30, 0x78] ++ List.replicate 32 (0x30 : Byte) ∧
    35 ≤ ([0x30, 0x78] ++ List.replicate 32 (0x30 : Byte) ++ 0 :: [0x55]).length ∧ (0 : Byte) ∉ [(0x66 : Byte), 0x66] ∧
    35 ≤ ([(0x66 : Byte), 0x66] ++ 0 :: List.replicate 32 0x30).length ∧
    (∃ str : HexString, ∀ i : Fin 35, str i = ([0x30, 0x78] ++ List.replicate 32 (0x30 : Byte) ++ 0 :: [0x55]).getD i 0) ∧
    ∃ str : HexString, ∀ i : Fin 35, str i = ([(0x66 : Byte), 0x66] ++ 0 :: List.replicate 32 0x30).getD i 0 :=
  ⟨by decide, by decide, by decide, by decide, ⟨_, fun _ => rfl⟩, ⟨_, fun _ => rfl⟩⟩

/-- Each list of the statement about unread ports has the commands it names. -/
theorem test_meets_unread_ports : Instr.ucmp ∈ [Instr.ucmp, .sdiv] ∧ Instr.ushr ∈ [Instr.ushl, .ushr] ∧
    Instr.suabs ∈ [Instr.lastset, .suabs] := by simp

theorem test_meets_udiv_at_once : (loaded 0x0005 7 0 0 []).dvRun = false ∧ (loaded 0x0005 7 0 0 []).bL = 0 ∧
    (loaded 0x0005 8 9 0 []).bL ≠ 0 ∧ (loaded 0x0005 8 9 0 []).aL.toNat ≤ (loaded 0x0005 8 9 0 []).bL.toNat ∧
    (loaded 0x0005 9 9 0 []).aL.toNat ≤ (loaded 0x0005 9 9 0 []).bL.toNat := by
  decide

theorem test_meets_sdiv_at_once : (loaded 0x0017 7 0 0 []).dvRun = false ∧ (loaded 0x0017 7 0 0 []).bL = 0 ∧
    (loaded 0x0017 (-8) 9 0 []).bL ≠ 0 ∧
    (loaded 0x0017 (-8) 9 0 []).aL.toInt.natAbs ≤ (loaded 0x0017 (-8) 9 0 []).bL.toInt.natAbs ∧
    (loaded 0x0017 (-9) 9 0 []).aL.toInt.natAbs ≤ (loaded 0x0017 (-9) 9 0 []).bL.toInt.natAbs := by
  decide

theorem test_meets_division_setup : divOperands (.sdiv false false) (loaded 0x0017 (-7) 2 0 []).aL (loaded 0x0017 (-7) 2 0 []).bL =
      some (7, 2, true, true) ∧ (loaded 0x0017 (-7) 2 0 []).dvRun = false ∧ (2 : Value) ≠ 0 ∧ (2 : Value).toNat < (7 : Value).toNat := by
  decide +kernel

theorem test_meets_division_iteration : divOperands (.udiv false false) dividing.aL dividing.bL = some (7, 2, false, false) ∧
    dividing.dvRun = true ∧ dividing.dvCnt ≠ 1 ∧ ({ dividing with dvCnt := 1 } : State).dvCnt = 1 := by decide

theorem test_meets_udiv_runs : (loaded 0x0105 7 2 0 []).busy = true ∧ (loaded 0x0105 7 2 0 []).dvRun = false ∧
    decode (loaded 0x0105 7 2 0 []).cmdL = .ok (.udiv true false) ∧ noReset (latency 0x0105 7 2) (loaded 0x0105 7 2 0 []).inputs := by
  decide

theorem test_meets_sdiv_runs : (loaded 0x0217 7 2 0 []).busy = true ∧ (loaded 0x0217 7 2 0 []).dvRun = false ∧
    decode (loaded 0x0217 7 2 0 []).cmdL = .ok (.sdiv false true) ∧ noReset (latency 0x0217 7 2) (loaded 0x0217 7 2 0 []).inputs := by
  decide

/-- The amounts where USHL's and USHR's clauses meet: 0 and 127 in range; -1, 128 and -2^31 out of it. -/
theorem test_meets_shift_commands : 0 ≤ (0 : Amount).toInt ∧ (0 : Amount).toInt ≤ 127 ∧ 0 ≤ (127 : Amount).toInt ∧
    (127 : Amount).toInt ≤ 127 ∧ (0xFFFFFFFF : Amount).toInt < 0 ∧ 127 < (128 : Amount).toInt ∧ (0x80000000 : Amount).toInt < 0 := by
  decide

theorem test_meets_lastset : (loaded 0x0009 1 0 0 []).aL ≠ 0 ∧ (loaded 0x0009 0 0 0 []).aL = 0 := by decide

/-- H10's window is a value's string; H8's fails the test; and each absent presence bit is a case. -/
theorem test_meets_fromhex :
    (∀ i : Fin 35, Memory.get (loaded 0x030B 0 0 0 windowH10).hinL i = hexenc (pair 0x123456789ABCDEF 0xFEDCBA9876543210) i) ∧
    hexvalid (fun i => Memory.get (loaded 0x030B 0 0 0 windowH10).hinL i) = true ∧
    hexvalid (fun i => Memory.get (loaded 0x030B 0 0 0 [(0, 0x66), (1, 0x66)]).hinL i) = false ∧
    (false && true) = false ∧ (true && false) = false ∧ (false && false) = false := by decide +kernel

/-- Literals at both ends of the range of 30_encoding.md rule R91, and a limb pair. -/
theorem test_meets_pseudo_commands : assembleValue (.int (-2 ^ 127)) = some (pair 0 0x8000000000000000) ∧
    assembleValue (.int (2 ^ 128 - 1)) = some max128 ∧ assembleValue (.limbs 20 27) = some (pair 20 27) := by decide

/-- A literal just outside the range assembles to nothing. -/
theorem test_literal_out_of_range : assembleValue (.int (2 ^ 128)) = none ∧ assembleAmount (2 ^ 31) = none := by decide

end Sys2Proof.Tests
end

/-! PROOF. The limbs of a value and the bytes of a port as numbers and bits (00_scope.md rule R6, 20_memory.md rules R64, R65), and with them the output
pins (10_state.md rule R22). -/

namespace Sys2Proof.Machine

theorem pair_toNat (l h : Limb) : (pair l h).toNat = h.toNat * 2 ^ 64 + l.toNat := by
  rw [pair, BitVec.toNat_append, ← Nat.shiftLeft_add_eq_or_of_lt l.isLt, Nat.shiftLeft_eq]

theorem toNat_eq_limbs (v : Value) : v.toNat = (hi v).toNat * 2 ^ 64 + (lo v).toNat := by
  simp only [hi, lo, BitVec.extractLsb'_toNat, Nat.shiftRight_eq_div_pow]
  omega

/-- A byte moved to index `j` of a port is seen at index `j` alone. -/
theorem byteOfPort_shifted (b : Byte) (j : Nat) {i : Nat} (hi : i < 35) :
    ((b.setWidth 280 <<< (8 * j) : HexPort)).extractLsb' (8 * i) 8 = if i = j then b else 0 := by
  apply BitVec.eq_of_getLsbD_eq
  intro k hk
  simp only [BitVec.getLsbD_extractLsb', BitVec.getLsbD_shiftLeft, BitVec.getLsbD_setWidth]
  rcases Nat.lt_trichotomy i j with hlt | rfl | hgt
  · have hlow : 8 * i + k < 8 * j := by omega
    simp [hlow, hlt.ne]
  · have hbit : 8 * i + k < 280 := by omega
    simp [hk, hbit]
    omega
  · have hhigh : 8 ≤ 8 * i + k - 8 * j := by omega
    simp [BitVec.getLsbD_of_ge b _ hhigh, hgt.ne']

/-- Byte `i` of a port built from the bytes listed in `l`. -/
theorem byteOfPort_foldr (m : Memory) (l : List Nat) {i : Nat} (hi : i < 35) :
    (l.foldr (fun j p => p ||| ((Memory.get m j).setWidth 280 <<< (8 * j))) (0 : HexPort)).extractLsb' (8 * i) 8 =
      if i ∈ l then Memory.get m i else 0 := by
  induction l with
  | nil => simp
  | cons j rest ih =>
    rw [List.foldr_cons, BitVec.extractLsb'_or, ih, byteOfPort_shifted _ _ hi]
    by_cases hj : i = j
    · subst hj
      by_cases hr : i ∈ rest <;> simp [hr]
    · simp [hj]

/-- Byte `i` of a buffer stands at bits `[8i+7:8i]` of its port (20_memory.md rule R64). -/
theorem portOfMemory_byte (m : Memory) (i : Fin 35) :
    (portOfMemory m).extractLsb' (8 * i) 8 = Memory.get m i := by
  rw [portOfMemory, byteOfPort_foldr m _ i.isLt, if_pos (List.mem_range.2 i.isLt)]

/-- Settles O15: six pins are their registers by definition; `rsp_hex` byte by byte, and the limb packing, by the lemmas above. -/
theorem outputPinsShowTheRegisters : Obligations.OutputPinsShowTheRegisters :=
  ⟨fun s => ⟨rfl, rfl, rfl, rfl, rfl, rfl, portOfMemory_byte s.resHex⟩, toNat_eq_limbs, pair_toNat⟩

end Sys2Proof.Machine

/-! PROOF. What no command's edge writes (10_state.md rules R31, R32). -/

namespace Sys2Proof.Machine

/-- No edge of a division writes a latch or what the host will drive. -/
theorem divEdge_keeps_latches (n d : Value) (qn rn : Bool) (s : State) :
    (divEdge n d qn rn s).inputs = s.inputs ∧ (divEdge n d qn rn s).cmdL = s.cmdL ∧
      (divEdge n d qn rn s).aL = s.aL ∧ (divEdge n d qn rn s).bL = s.bL ∧
      (divEdge n d qn rn s).amtL = s.amtL ∧ (divEdge n d qn rn s).hinL = s.hinL := by
  obtain ⟨-, -, h⟩ | ⟨-, -, h⟩ | ⟨-, -, h⟩ | ⟨-, -, h⟩ := divEdge_cases n d qn rn s <;> simp [h]

/-- Settles O14: a command either completes, which writes no latch and no engine register, or is a division and takes an edge of the engine. -/
theorem commandsLeaveTheLatchesAlone : Obligations.CommandsLeaveTheLatchesAlone := by
  intro i s t ht
  obtain ⟨-, r, -, hexec⟩ | ⟨n, d, qn, rn, hdiv, hexec⟩ := exec_cases i s
  · obtain rfl : complete r s = t := by simpa [hexec] using ht
    simp
  · obtain rfl : divEdge n d qn rn s = t := by simpa [hexec] using ht
    obtain ⟨hin, hcmd, ha, hb, hamt, hhin⟩ := divEdge_keeps_latches n d qn rn s
    exact ⟨hin, hcmd, ha, hb, hamt, hhin, fun k => by rw [hhin], fun hnone => by simp [hdiv] at hnone⟩

end Sys2Proof.Machine

/-! PROOF. The general case of the division's setup: the divisor is nonzero and below the dividend, the loop runs 1 to 128 times, and running it is
`udiv` (42_unsigned_divide.md rules R150, R151). -/

namespace Sys2Proof.Machine

theorem ucmp_eq_compare (a b : Value) : ucmp a b = compare a.toNat b.toNat := by
  have ha := toNat_eq_limbs a
  have hb := toNat_eq_limbs b
  have hla := (lo a).isLt
  have hlb := (lo b).isLt
  unfold ucmp
  split_ifs
  · exact (Nat.compare_eq_lt.2 (by omega)).symm
  · exact (Nat.compare_eq_gt.2 (by omega)).symm
  · exact (Nat.compare_eq_lt.2 (by omega)).symm
  · exact (Nat.compare_eq_gt.2 (by omega)).symm
  · exact (Nat.compare_eq_eq.2 (by omega)).symm

/-- Case 4 of rule R150. -/
theorem divSpecial_eq_false {n d : Value} : divSpecial n d = false ↔ d ≠ 0 ∧ d.toNat < n.toNat := by
  have hne : ¬ d = n ↔ d.toNat ≠ n.toNat := BitVec.toNat_inj.not.symm
  simp only [divSpecial, ucmp_eq_compare, Nat.compare_eq_gt, Bool.or_eq_false_iff, decide_eq_false_iff_not, hne,
    and_assoc]
  exact and_congr_right fun _ => by omega

theorem highestSetBelow_lt {w : Nat} {v : BitVec w} {bound k : Nat} (h : highestSetBelow v bound = some k) :
    k < bound := by
  induction bound with
  | zero => cases h
  | succ bound ih =>
    unfold highestSetBelow at h
    split at h
    · cases h; exact Nat.lt_succ_self _
    · exact Nat.lt_succ_of_lt (ih h)

theorem getLsbD_of_highestSetBelow_none {w : Nat} {v : BitVec w} {bound : Nat} (h : highestSetBelow v bound = none)
    {k : Nat} (hk : k < bound) : v.getLsbD k = false := by
  induction bound with
  | zero => omega
  | succ bound ih =>
    unfold highestSetBelow at h
    split at h
    · cases h
    · obtain hlt | rfl := Nat.lt_succ_iff_lt_or_eq.1 hk
      · exact ih h hlt
      · exact Bool.eq_false_iff.2 ‹_›

theorem lastset_le {v : Value} (hv : v ≠ 0) : lastset v ≤ 127 := by
  unfold lastset
  split
  · exact Nat.le_of_lt_succ (highestSetBelow_lt ‹_›)
  · refine absurd (BitVec.eq_of_getLsbD_eq fun k hk => ?_) hv
    simpa using getLsbD_of_highestSetBelow_none ‹_› hk

/-- The shift of case 4 is at most 127 (rule R151). -/
theorem divShift_le {n d : Value} (h : divSpecial n d = false) : divShift n d ≤ 127 := by
  have hn : n ≠ 0 := by
    rintro rfl
    exact absurd (divSpecial_eq_false.1 h).2 (Nat.not_lt_zero _)
  exact (Nat.sub_le _ _).trans (lastset_le hn)

/-- In case 4 `udiv` is the loop, run from its start. -/
theorem udiv_eq_divRun {n d : Value} (h : divSpecial n d = false) :
    udiv n d = ((divRun (divShift n d + 1) (divStart n d)).q, (divRun (divShift n d + 1) (divStart n d)).n) := by
  simp only [divSpecial, Bool.or_eq_false_iff, decide_eq_false_iff_not] at h
  obtain ⟨⟨hzero, habove⟩, hequal⟩ := h
  rw [udiv, if_neg hzero, if_neg habove, if_neg hequal]

/-- The divisor of the next iteration does not depend on the subtraction. -/
theorem divBody_dd (l : DivLoop) : (divBody l).dd = shr128 l.dd 1 := by
  unfold divBody
  split <;> rfl

end Sys2Proof.Machine

/-! PROOF. Every edge keeps the invariant (10_state.md rules R26 to R32, 60_exceptions.md rule R249, 42_unsigned_divide.md rules R154, R156): one lemma per
kind of edge. While the loop iterates the latched word is a division (`Inv.onCourse`), so no other command completes with the loop still running. -/

namespace Sys2Proof.Machine

/-- What `Exec` can give, illegal words included. -/
theorem commandFn_shape {cmd : CmdWord} {a b : Value} {amt : Amount} {hin : Memory} {r : Results}
    (h : commandFn cmd a b amt hin = .ok r) :
    r.cmp ≠ 0b10 ∧ Memory.wf r.hout = true ∧ (r.st ≠ .ok → r = failed r.st) := by
  unfold commandFn at h
  split at h
  · exact commandResult_shape h
  · cases h
    exact ⟨by decide, rfl, fun _ => rfl⟩

theorem commandFn_of_decode {cmd : CmdWord} {i : Instr} (h : decode cmd = .ok i) (a b : Value) (amt : Amount) (hin : Memory) :
    commandFn cmd a b amt hin = commandResult i a b amt hin := by
  rw [commandFn, h]

theorem commandFn_of_illegal {cmd : CmdWord} {e : DecodeError} (h : decode cmd = .error e) (a b : Value) (amt : Amount)
    (hin : Memory) : commandFn cmd a b amt hin = .ok (failed .errIllegal) := by
  rw [commandFn, h]

/-- The invariant asks nothing of the coming pins. -/
theorem Inv.advanceInputs {s : State} (h : Inv s) : Inv (advanceInputs s) :=
  ⟨h.hinWf, h.hexWf, h.statusNamed, h.cmpNamed, h.failedIsZero, h.notBusyAndDone, h.runningIsBusy, h.stoppedAtZero,
    h.onCourse, h.doneResults⟩

theorem inv_resetEdge (s : State) : Inv (resetEdge s) where
  hinWf := Memory.wf_blank
  hexWf := Memory.wf_blank
  statusNamed := by simp
  cmpNamed := by simp
  failedIsZero := by simp
  notBusyAndDone := by simp
  runningIsBusy := by simp
  stoppedAtZero := by simp
  onCourse := by simp
  doneResults := by simp

/-- An accepting edge comes to an idle block, whose loop is not iterating. -/
theorem Inv.accept {s : State} (h : Inv s) (hidle : s.busy = false) (p : Pins) : Inv (accept p s) where
  hinWf := memoryOfPort_wf _
  hexWf := h.hexWf
  statusNamed := h.statusNamed
  cmpNamed := h.cmpNamed
  failedIsZero := h.failedIsZero
  notBusyAndDone := by simp
  runningIsBusy := by simp
  stoppedAtZero := h.stoppedAtZero
  onCourse hrun := by simpa [hidle] using h.runningIsBusy hrun
  doneResults := by simp

/-- A completing edge with the results of `Exec` on the latches, the loop at rest. -/
theorem inv_complete {s : State} {r : Results} (hin : Memory.wf s.hinL = true)
    (hres : commandFn s.cmdL s.aL s.bL s.amtL s.hinL = .ok r) (hrun : s.dvRun = false) (hcnt : s.dvCnt = 0) :
    Inv (complete r s) := by
  obtain ⟨hcmp, hhex, hfail⟩ := commandFn_shape hres
  exact {
    hinWf := hin
    hexWf := hhex
    statusNamed := statusCode_named r.st
    cmpNamed := hcmp
    failedIsZero := fun hst => by
      have hr : r = failed r.st := hfail fun hok => hst (statusCode_eq_zero.2 hok)
      rw [hr]
      exact ⟨rfl, rfl, rfl, rfl⟩
    notBusyAndDone := by simp
    runningIsBusy := by simp [hrun]
    stoppedAtZero := fun _ => hcnt
    onCourse := by simp [hrun]
    doneResults := fun _ => ⟨r, hres, rfl⟩ }

/-- While the loop iterates the latched word is that of a division, with the latched signs. -/
theorem Inv.division_of_running {s : State} (h : Inv s) (hrun : s.dvRun = true) :
    ∃ i n d, decode s.cmdL = .ok i ∧ divOperands i s.aL s.bL = some (n, d, s.dvQneg, s.dvRneg) := by
  obtain ⟨n, d, ⟨i, hdec, hops⟩, -⟩ := h.onCourse hrun
  exact ⟨i, n, d, hdec, hops⟩

/-- A command whose word is no legal division finds the loop at rest and completes. -/
theorem Inv.complete_of_not_division {s : State} {r : Results} (h : Inv s)
    (hres : commandFn s.cmdL s.aL s.bL s.amtL s.hinL = .ok r)
    (hnot : ∀ i, decode s.cmdL = .ok i → divOperands i s.aL s.bL = none) : Inv (complete r s) := by
  have hrun : s.dvRun = false := by
    by_contra hne
    obtain ⟨i, n, d, hdec, hops⟩ := h.division_of_running (by simpa using hne)
    simp [hnot i hdec] at hops
  exact inv_complete h.hinWf hres hrun (h.stoppedAtZero hrun)

/-- The invariant of a state that has the other registers of one that has it, is busy too, and whose engine is on course. -/
theorem Inv.of_onCourse {s t : State} (h : Inv s) (hbusy : s.busy = true) (hin : t.hinL = s.hinL)
    (hregs : resultRegs t = resultRegs s) (htbusy : t.busy = s.busy) (htdone : t.done = s.done) (htrun : t.dvRun = true)
    (hcourse : engineOnCourse t) : Inv t := by
  simp only [resultRegs, Prod.mk.injEq] at hregs
  obtain ⟨hst, hq, hr, hcmp, hhex⟩ := hregs
  have hdone : t.done = false := by
    have := h.notBusyAndDone
    simpa [htdone, hbusy] using this
  exact {
    hinWf := hin ▸ h.hinWf
    hexWf := hhex ▸ h.hexWf
    statusNamed := hst ▸ h.statusNamed
    cmpNamed := hcmp ▸ h.cmpNamed
    failedIsZero := by simpa only [hst, hq, hr, hcmp, hhex] using h.failedIsZero
    notBusyAndDone := by simp [hdone]
    runningIsBusy := fun _ => htbusy.trans hbusy
    stoppedAtZero := by simp [htrun]
    onCourse := fun _ => hcourse
    doneResults := by simp [hdone] }

/-- The setup edge of the general case puts the engine on course (rules R150, R154). -/
theorem engineOnCourse_divLoad {s : State} {n d : Value} {qn rn : Bool} (hlatched : divisionLatched s n d qn rn)
    (hgen : divSpecial n d = false) : engineOnCourse (divLoad n d qn rn s) := by
  have hle := divShift_le hgen
  have hcnt : (divLoad n d qn rn s).dvCnt.toNat = divShift n d + 1 := by
    rw [divLoad_dvCnt, BitVec.toNat_ofNat]
    omega
  refine ⟨n, d, hlatched, by omega, by omega, ?_⟩
  rw [hcnt]
  exact udiv_eq_divRun hgen

/-- An iteration that is not the last leaves one iteration fewer to the same end. -/
theorem engineOnCourse_divKeep {s : State} (h : engineOnCourse s) (hlast : s.dvCnt ≠ 1) :
    engineOnCourse (divKeep (divBody ⟨s.dvN, s.dvD, s.dvQ⟩) (divCount s)) := by
  obtain ⟨n, d, hlatched, hlow, hhigh, hend⟩ := h
  have hne : s.dvCnt.toNat ≠ 1 := fun heq => hlast (BitVec.eq_of_toNat_eq heq)
  have hcnt : s.dvCnt.toNat = (s.dvCnt - 1).toNat + 1 := by
    rw [BitVec.toNat_sub_of_le (by rw [BitVec.le_def]; exact hlow)]
    exact (Nat.sub_add_cancel hlow).symm
  refine ⟨n, d, hlatched, ?_, ?_, ?_⟩
  · simp only [divKeep_dvCnt, divCount_dvCnt]; omega
  · simp only [divKeep_dvCnt, divCount_dvCnt]; omega
  · rw [hcnt, divRun] at hend
    simpa only [divKeep_dvCnt, divCount_dvCnt, divKeep_dvN, divKeep_dvQ, divKeep_dvD, divCount_dvD, ← divBody_dd ⟨s.dvN, s.dvD, s.dvQ⟩]
      using hend

/-- The last iteration ends in the quotient and remainder of the latched operands (rule R156). -/
theorem engineOnCourse_last {s : State} (h : engineOnCourse s) (hlast : s.dvCnt = 1) :
    ∃ n d, divisionLatched s n d s.dvQneg s.dvRneg ∧
      udiv n d = ((divBody ⟨s.dvN, s.dvD, s.dvQ⟩).q, (divBody ⟨s.dvN, s.dvD, s.dvQ⟩).n) := by
  obtain ⟨n, d, hlatched, -, -, hend⟩ := h
  rw [hlast] at hend
  exact ⟨n, d, hlatched, hend⟩

/-- `Exec` of a latched division. -/
theorem commandFn_of_divisionLatched {s : State} {n d : Value} {qn rn : Bool} (h : divisionLatched s n d qn rn) :
    commandFn s.cmdL s.aL s.bL s.amtL s.hinL = .ok (divResults (divSigned (udiv n d) qn rn)) := by
  obtain ⟨i, hdec, hops⟩ := h
  rw [commandFn_of_decode hdec, commandResult_division hops]

/-- Each of the four edges of a division keeps the invariant. -/
theorem Inv.divEdge {s : State} (h : Inv s) (hbusy : s.busy = true) {n d : Value} {qn rn : Bool}
    (hlatched : divisionLatched s n d qn rn) : Inv (divEdge n d qn rn s) := by
  obtain ⟨hrun, -, heq⟩ | ⟨-, hgen, heq⟩ | ⟨hrun, hlast, heq⟩ | ⟨hrun, hmore, heq⟩ := divEdge_cases n d qn rn s <;> rw [heq]
  · exact inv_complete h.hinWf (commandFn_of_divisionLatched hlatched) hrun (h.stoppedAtZero hrun)
  · exact h.of_onCourse hbusy rfl rfl rfl rfl rfl (engineOnCourse_divLoad hlatched hgen)
  · obtain ⟨n', d', hlatched', hend⟩ := engineOnCourse_last (h.onCourse hrun) hlast
    rw [← hend]
    exact inv_complete h.hinWf (commandFn_of_divisionLatched (s := s) hlatched') rfl (by simp [hlast])
  · exact h.of_onCourse hbusy rfl rfl rfl rfl hrun (engineOnCourse_divKeep (h.onCourse hrun) hmore)

/-- The edge of the command in progress keeps the invariant. -/
theorem Inv.runCommand {s t : State} (h : Inv s) (hbusy : s.busy = true) (ht : runCommand s = .next t) : Inv t := by
  unfold Machine.runCommand at ht
  split at ht
  next i hdec =>
    obtain ⟨hnone, r, hres, hexec⟩ | ⟨n, d, qn, rn, hops, hexec⟩ := exec_cases i s
    · obtain rfl : complete r s = t := by simpa [hexec] using ht
      refine h.complete_of_not_division (by rw [commandFn_of_decode hdec, hres]) fun j hj => ?_
      obtain rfl : i = j := by simpa [hdec] using hj
      exact hnone
    · obtain rfl : Machine.divEdge n d qn rn s = t := by simpa [hexec] using ht
      exact h.divEdge hbusy ⟨i, hdec, hops⟩
  next e hdec =>
    obtain rfl : complete (failed .errIllegal) s = t := Host.Outcome.next.inj ht
    exact h.complete_of_not_division (commandFn_of_illegal hdec _ _ _ _) fun i hi => by simp [hdec] at hi

/-- Settles O17, by the four kinds of edge: reset, accept, the command in progress, and the idle edge. -/
theorem everyEdgeKeepsTheInvariant : Obligations.EveryEdgeKeepsTheInvariant := by
  intro s t h ht
  obtain ⟨-, heq⟩ | ⟨-, hidle, -, heq⟩ | ⟨-, hbusy, heq⟩ | ⟨-, -, -, heq⟩ := clockEdge_cases s <;>
    rw [step, heq] at ht
  · obtain rfl := Host.Outcome.next.inj ht
    exact inv_resetEdge _
  · obtain rfl := Host.Outcome.next.inj ht
    exact h.advanceInputs.accept hidle _
  · exact h.advanceInputs.runCommand hbusy ht
  · obtain rfl := Host.Outcome.next.inj ht
    exact h.advanceInputs

end Sys2Proof.Machine

/-! PROOF. The decoder and the encoder by the fields of a word (30_encoding.md rules R80, R87, R88). -/

namespace Sys2Proof

/-- Taking a word apart and putting its fields together again. -/
theorem wordOfRaw_rawOfWord (w : CmdWord) : wordOfRaw (rawOfWord w) = w := by
  apply BitVec.eq_of_getLsbD_eq
  intro k hk
  simp only [wordOfRaw, rawOfWord, BitVec.getLsbD_append, BitVec.getLsbD_ofBool, BitVec.getLsbD_extractLsb']
  interval_cases k <;> simp

/-- Each command's word is legal, and its fields are those the command was given. -/
theorem wordShape : ∀ i : Instr, Laws.WordShape.Statement i
  | .ucmp h o => Laws.WordShape.ucmp h o
  | .uadd h o => Laws.WordShape.uadd h o
  | .usub h o => Laws.WordShape.usub h o
  | .umul h o => Laws.WordShape.umul h o
  | .udiv h o => Laws.WordShape.udiv h o
  | .ushl h o => Laws.WordShape.ushl h o
  | .ushr h o => Laws.WordShape.ushr h o
  | .clz64 h o => Laws.WordShape.clz64 h o
  | .lastset h o => Laws.WordShape.lastset h o
  | .tohex h o => Laws.WordShape.tohex h o
  | .fromhex h o => Laws.WordShape.fromhex h o
  | .screate h o => Laws.WordShape.screate h o
  | .scrneg h o => Laws.WordShape.scrneg h o
  | .suabs h o => Laws.WordShape.suabs h o
  | .scmp h o => Laws.WordShape.scmp h o
  | .sadd h o => Laws.WordShape.sadd h o
  | .ssub h o => Laws.WordShape.ssub h o
  | .smul h o => Laws.WordShape.smul h o
  | .sdiv h o => Laws.WordShape.sdiv h o

theorem rawOfWord_encode (i : Instr) : rawOfWord (encode i) = rawOfInstr i := (wordShape i).2

theorem rawOfInstr_wellFormed (i : Instr) : (rawOfInstr i).wellFormed = true := (wordShape i).1

/-- A row of the opcode map has the `OP` of the command it selects. -/
theorem rawOfInstr_of_row {op : BitVec 8} {command : Bool → Bool → Instr} (hrow : (op, command) ∈ opcodeTable)
    (hinP outP : Bool) : rawOfInstr (command hinP outP) = ⟨op, hinP, outP, 0⟩ := by
  have hall : ∀ row ∈ opcodeTable, rawOfInstr (row.2 hinP outP) = ⟨row.1, hinP, outP, 0⟩ := by
    simp [opcodeTable, rawOfInstr]
  exact hall _ hrow

/-- The opcode map has a row for every assigned value of `OP` (rule R88). -/
theorem row_of_opAssigned {c : RawCommand} (h : c.opAssigned = true) : ∃ command, (c.op, command) ∈ opcodeTable := by
  simp only [RawCommand.opAssigned, Bool.or_eq_true, Bool.and_eq_true, decide_eq_true_eq, BitVec.le_def,
    BitVec.ofNat_eq_ofNat, BitVec.toNat_ofNat] at h
  simp only [opcodeTable, List.mem_cons, Prod.mk.injEq, exists_or, exists_and_left, exists_eq, and_true,
    List.not_mem_nil, or_false, ← BitVec.toNat_inj, BitVec.ofNat_eq_ofNat, BitVec.toNat_ofNat]
  omega

/-- The assigned values of `OP` are those of the commands. -/
theorem opAssigned_iff {c : RawCommand} : c.opAssigned = true ↔ ∃ i, c.op = (rawOfInstr i).op := by
  constructor
  · intro h
    obtain ⟨command, hrow⟩ := row_of_opAssigned h
    exact ⟨command false false, by rw [rawOfInstr_of_row hrow]⟩
  · rintro ⟨i, hop⟩
    have hlegal := rawOfInstr_wellFormed i
    rw [RawCommand.wellFormed, Bool.and_eq_true] at hlegal
    rw [RawCommand.opAssigned, hop]
    exact hlegal.2

/-- The well-formed fields are those of the commands. -/
theorem wellFormed_iff {c : RawCommand} : c.wellFormed = true ↔ ∃ i, c = rawOfInstr i := by
  constructor
  · intro h
    obtain ⟨hrsv, hop⟩ := Bool.and_eq_true_iff.1 h
    obtain ⟨command, hrow⟩ := row_of_opAssigned hop
    refine ⟨command c.hinP c.outP, ?_⟩
    rw [rawOfInstr_of_row hrow, ← eq_of_beq hrsv]
  · rintro ⟨i, rfl⟩
    exact rawOfInstr_wellFormed i

/-- A word decodes to a command iff it has that command's fields. -/
theorem decode_eq_ok_iff {w : CmdWord} {i : Instr} : decode w = .ok i ↔ rawOfWord w = rawOfInstr i := by
  constructor
  · intro h
    simp only [decode] at h
    split at h
    next hrsv =>
      split at h
      next command hlookup =>
        obtain ⟨before, after, htable, -⟩ := List.lookup_eq_some_iff.1 hlookup
        obtain rfl := Except.ok.inj h
        rw [rawOfInstr_of_row (op := (rawOfWord w).op) (by simp [htable]), ← eq_of_beq hrsv]
      next => cases h
    next => cases h
  · intro h
    simp only [decode, h]
    cases i <;> rfl

theorem decode_encode (i : Instr) : decode (encode i) = .ok i :=
  decode_eq_ok_iff.2 (rawOfWord_encode i)

theorem encode_of_decode {w : CmdWord} {i : Instr} (h : decode w = .ok i) : encode i = w := by
  rw [encode, ← decode_eq_ok_iff.1 h, wordOfRaw_rawOfWord]

/-- Settles O1: a word decodes to the command whose fields it has, and the fields of a word determine it. -/
theorem decodeAndEncodeAgree : Obligations.DecodeAndEncodeAgree :=
  ⟨decode_encode, fun _ _ => encode_of_decode⟩

end Sys2Proof

/-! PROOF. The legal words as numbers and by the opcode mask (30_encoding.md rules R81, R84, R88). -/

namespace Sys2Proof

open Machine

theorem rawOfWord_op_toNat (w : CmdWord) : (rawOfWord w).op.toNat = w.toNat % 256 := by
  simp [rawOfWord]

theorem rawOfWord_rsv_toNat (w : CmdWord) : (rawOfWord w).rsv.toNat = w.toNat / 1024 := by
  rw [rawOfWord, BitVec.extractLsb'_toNat, Nat.shiftRight_eq_div_pow]
  exact Nat.mod_eq_of_lt (by omega)

/-- The claims' legality, said of the word as a number, is that of its fields. -/
theorem wellFormed_rawOfWord {w : CmdWord} : (rawOfWord w).wellFormed = true ↔ ¬ illegalWord w := by
  simp only [RawCommand.wellFormed, RawCommand.rsvClear, RawCommand.opAssigned, Bool.or_eq_true, Bool.and_eq_true,
    decide_eq_true_eq, beq_iff_eq, BitVec.le_def, ← BitVec.toNat_inj, rawOfWord_op_toNat, rawOfWord_rsv_toNat,
    BitVec.ofNat_eq_ofNat, BitVec.toNat_ofNat]
  omega

theorem decode_ok_iff_legal {w : CmdWord} : (∃ i, decode w = .ok i) ↔ ¬ illegalWord w := by
  simp only [decode_eq_ok_iff, ← wellFormed_iff, wellFormed_rawOfWord]

theorem decode_error_of_illegal {w : CmdWord} (h : illegalWord w) : ∃ e, decode w = .error e := by
  cases hdec : decode w with
  | ok i => exact absurd h (decode_ok_iff_legal.1 ⟨i, hdec⟩)
  | error e => exact ⟨e, rfl⟩

/-- The mask 0xFCFF takes the two presence bits out of a word. -/
theorem wordOfRaw_and_mask {c : RawCommand} (h : c.rsv = 0) : wordOfRaw c &&& 0xFCFF = c.op.setWidth 16 := by
  apply BitVec.eq_of_getLsbD_eq
  intro k hk
  simp only [wordOfRaw, h, BitVec.getLsbD_and, BitVec.getLsbD_append, BitVec.getLsbD_ofBool, BitVec.getLsbD_setWidth]
  interval_cases k <;> simp

theorem rawOfInstr_rsv (i : Instr) : (rawOfInstr i).rsv = 0 := by
  cases i <;> rfl

/-- Settles O2: legality is that of the fields; a legal word is its command's, whose `RSV` is 0. -/
theorem legalWordsAreExactlyTheAssignedOnes : Obligations.LegalWordsAreExactlyTheAssignedOnes := by
  refine ⟨fun w => decode_ok_iff_legal, fun w i h => ?_⟩
  rw [← encode_of_decode h]
  exact wordOfRaw_and_mask (rawOfInstr_rsv i)

/-- Illegality by the fields: `RSV` not 0, or an `OP` no command has. -/
theorem illegalWord_iff_fields (w : CmdWord) :
    illegalWord w ↔ w.extractLsb' 10 6 ≠ 0 ∨ ∀ i, w.extractLsb' 0 8 ≠ (rawOfInstr i).op := by
  calc illegalWord w
      ↔ ¬ ((rawOfWord w).rsvClear = true ∧ (rawOfWord w).opAssigned = true) := by
        rw [← Bool.and_eq_true_iff]; exact iff_not_comm.1 wellFormed_rawOfWord
    _ ↔ ¬ (w.extractLsb' 10 6 = 0 ∧ ∃ i, w.extractLsb' 0 8 = (rawOfInstr i).op) := by
        rw [opAssigned_iff, RawCommand.rsvClear, beq_iff_eq, rawOfWord]
    _ ↔ _ := by rw [not_and_or, not_exists]

/-- Settles O10: an offer is latched whatever its word is, and in progress an illegal word raises its status at once. -/
theorem illegalWordCompletesWithErrIllegal : Obligations.IllegalWordCompletesWithErrIllegal := by
  refine ⟨illegalWord_iff_fields, fun s p rest hin hrst hidle hvalid _ => ?_, fun s hrst hbusy hill => ?_⟩
  · have hp := sample_of_inputs hin
    obtain ⟨h, -⟩ | ⟨-, -, -, h⟩ | ⟨-, h, -⟩ | ⟨-, -, h, -⟩ := clockEdge_cases s
    · simp [hp, hrst] at h
    · exact ⟨_, h, rfl, by rw [hp]; rfl⟩
    · simp [hidle] at h
    · simp [hp, hvalid] at h
  · obtain ⟨e, he⟩ := decode_error_of_illegal hill
    rw [step_busy hrst hbusy, runCommand, advanceInputs_cmdL, he]
    exact raiseStatus_eq .errIllegal _

/-- Settles O3, by evaluating the decoder on the listed words. -/
theorem specWordsDecodeAsListed : Obligations.SpecWordsDecodeAsListed := by
  unfold Obligations.SpecWordsDecodeAsListed
  decide

/-- Settles O4, by evaluating the assembler on the listed forms. -/
theorem assemblerFormsGiveTheListedWords : Obligations.AssemblerFormsGiveTheListedWords := by
  unfold Obligations.AssemblerFormsGiveTheListedWords
  decide

end Sys2Proof

/-! PROOF. The limb datapath in closed form: the adder, the subtracter and negation are those of `BitVec` (41_unsigned_arith.md rules R130, R131,
45_signed.md rules R210, R211), and so are the shifts by 0 to 127 (43_shift_bitlen.md rules R170, R171). -/

namespace Sys2Proof.Machine

/-- The carry is what the sum of the low limbs lost (rule R130). -/
theorem add128_eq (a b : Value) : add128 a b = a + b := by
  have ha := toNat_eq_limbs a
  have hb := toNat_eq_limbs b
  apply BitVec.eq_of_toNat_eq
  simp only [add128, pair_toNat, BitVec.toNat_add]
  split_ifs <;> simp only [BitVec.ofNat_eq_ofNat, BitVec.toNat_ofNat] <;> omega

/-- The borrow is what the difference of the low limbs gained (rule R131). -/
theorem sub128_eq (a b : Value) : sub128 a b = a - b := by
  have ha := toNat_eq_limbs a
  have hb := toNat_eq_limbs b
  apply BitVec.eq_of_toNat_eq
  simp only [sub128, pair_toNat, BitVec.toNat_sub]
  split_ifs <;> simp only [BitVec.ofNat_eq_ofNat, BitVec.toNat_ofNat] <;> omega

theorem neg128_eq (m : Value) : neg128 m = -m := by
  rw [neg128, add128_eq, BitVec.neg_eq_not_add]
  rfl

theorem uabs_eq (v : Value) : uabs v = if v.msb then -v else v := by
  rw [uabs, neg128_eq]
  rfl

/-- The absolute value is exact, for -2^127 too (45_signed.md rule R211). -/
theorem uabs_toNat (v : Value) : (uabs v).toNat = v.toInt.natAbs := by
  have hmsb := BitVec.msb_eq_decide v
  rw [uabs_eq, BitVec.toInt_eq_msb_cond]
  split_ifs with hneg
  · rw [hneg, eq_comm, decide_eq_true_eq] at hmsb
    rw [BitVec.toNat_neg]
    omega
  · omega

theorem getLsbD_pair (l h : Limb) (k : Nat) :
    (pair l h).getLsbD k = if k < 64 then l.getLsbD k else h.getLsbD (k - 64) :=
  BitVec.getLsbD_append

theorem getLsbD_lo (v : Value) (k : Nat) : (lo v).getLsbD k = (decide (k < 64) && v.getLsbD k) := by
  simp [lo]

theorem getLsbD_hi (v : Value) (k : Nat) : (hi v).getLsbD k = (decide (k < 64) && v.getLsbD (64 + k)) := by
  simp [hi]

theorem shl128_eq (v : Value) {n : Nat} (h : n ≤ 127) : shl128 v n = v <<< n := by
  unfold shl128
  split_ifs with hzero habove hwide
  · simp [hzero]
  · omega
  · apply BitVec.eq_of_getLsbD_eq
    intro k hk
    have hindex : k - 64 - (n - 64) = k - n := by omega
    simp only [getLsbD_pair, getLsbD_lo, BitVec.getLsbD_shiftLeft, hindex, BitVec.ofNat_eq_ofNat, BitVec.getLsbD_zero]
    grind
  · apply BitVec.eq_of_getLsbD_eq
    intro k hk
    simp only [getLsbD_pair, getLsbD_lo, getLsbD_hi, BitVec.getLsbD_shiftLeft, BitVec.getLsbD_or,
      BitVec.getLsbD_ushiftRight]
    grind

theorem shr128_eq (v : Value) {n : Nat} (h : n ≤ 127) : shr128 v n = v >>> n := by
  unfold shr128
  split_ifs with hzero habove hwide
  · simp [hzero]
  · omega
  · apply BitVec.eq_of_getLsbD_eq
    intro k hk
    simp only [getLsbD_pair, getLsbD_hi, BitVec.getLsbD_ushiftRight]
    grind
  · apply BitVec.eq_of_getLsbD_eq
    intro k hk
    simp only [getLsbD_pair, getLsbD_lo, getLsbD_hi, BitVec.getLsbD_shiftLeft, BitVec.getLsbD_or,
      BitVec.getLsbD_ushiftRight]
    by_cases hcross : n + k < 64
    · grind
    · have hindex : k < 64 → 64 + (k - (64 - n)) = n + k := by omega
      grind

end Sys2Proof.Machine

/-! PROOF. The highest set bit is the binary logarithm (43_shift_bitlen.md rule R173). -/

namespace Sys2Proof.Machine

theorem highestSetBelow_some {w : Nat} {v : BitVec w} {bound k : Nat} (h : highestSetBelow v bound = some k) :
    v.getLsbD k = true ∧ ∀ j, k < j → j < bound → v.getLsbD j = false := by
  induction bound with
  | zero => cases h
  | succ bound ih =>
    unfold highestSetBelow at h
    split at h
    next hbit => cases h; exact ⟨hbit, fun j hj hlt => by omega⟩
    next hbit =>
      obtain ⟨hk, habove⟩ := ih h
      refine ⟨hk, fun j hj hlt => ?_⟩
      obtain hlt | rfl := Nat.lt_succ_iff_lt_or_eq.1 hlt
      · exact habove j hj hlt
      · exact Bool.eq_false_iff.2 hbit

/-- The highest set bit of a nonzero value is the bit whose power of 2 brackets it from below. -/
theorem lastset_eq_log2 {v : Value} (hv : v ≠ 0) : lastset v = v.toNat.log2 := by
  have hnat : v.toNat ≠ 0 := fun h => hv (BitVec.eq_of_toNat_eq h)
  unfold lastset
  split
  next k hk =>
    obtain ⟨hset, habove⟩ := highestSetBelow_some hk
    have hupper : v.toNat < 2 ^ (k + 1) := by
      refine Nat.lt_pow_two_of_testBit _ fun j hj => ?_
      obtain hlt | hge := Nat.lt_or_ge j 128
      · exact habove j hj hlt
      · exact BitVec.getLsbD_of_ge v j hge
    exact ((Nat.log2_eq_iff hnat).2 ⟨Nat.ge_two_pow_of_testBit hset, hupper⟩).symm
  next hnone =>
    refine absurd (BitVec.eq_of_getLsbD_eq fun k hk => ?_) hv
    simpa using getLsbD_of_highestSetBelow_none hnone hk

end Sys2Proof.Machine

/-! PROOF. The shift-subtract loop divides (42_unsigned_divide.md rules R150 to R152): with `k` iterations to run, the partial remainder is below
`d * 2^k` and the quotient so far, moved up by `k` places, counts the multiples of `d` already subtracted. -/

namespace Sys2Proof.Machine

/-- An iteration that finds the divisor above the partial remainder appends a 0 to the quotient. -/
theorem divBody_of_lt {l : DivLoop} (h : l.n.toNat < l.dd.toNat) : divBody l = ⟨l.n, l.dd >>> 1, l.q <<< 1⟩ := by
  rw [divBody, ucmp_eq_compare, if_neg (not_not_intro (Nat.compare_eq_lt.2 h)), shr128_eq _ (by decide),
    shl128_eq _ (by decide)]

/-- Any other iteration subtracts the divisor and appends a 1. -/
theorem divBody_of_le {l : DivLoop} (h : l.dd.toNat ≤ l.n.toNat) :
    divBody l = ⟨l.n - l.dd, l.dd >>> 1, l.q <<< 1 ||| 1⟩ := by
  rw [divBody, ucmp_eq_compare, if_pos (fun hlt => Nat.not_lt.2 h (Nat.compare_eq_lt.1 hlt)), shr128_eq _ (by decide),
    shl128_eq _ (by decide), sub128_eq]

theorem toNat_shiftLeft_one {q : Value} (h : 2 * q.toNat < 2 ^ 128) : (q <<< 1).toNat = 2 * q.toNat := by
  rw [BitVec.toNat_shiftLeft, Nat.shiftLeft_eq]
  omega

theorem toNat_shiftLeft_one_or_one {q : Value} (h : 2 * q.toNat < 2 ^ 128) :
    (q <<< 1 ||| 1).toNat = 2 * q.toNat + 1 := by
  have hor := Nat.shiftLeft_add_eq_or_of_lt (i := 1) (b := 1) (by decide) q.toNat
  rw [BitVec.toNat_or, toNat_shiftLeft_one h]
  rw [Nat.shiftLeft_eq, pow_one, mul_comm] at hor
  exact hor.symm

/-- `count` iterations left of a division by `d`: the divisor register holds `d` moved up to its place in this iteration, what is still to be divided
is below the next place, and the quotient has room for the bits to come. -/
structure DivInv (d count : Nat) (l : DivLoop) : Prop where
  aligned : l.dd.toNat = d * 2 ^ count / 2
  below : l.n.toNat < d * 2 ^ count
  room : (l.q.toNat + 1) * 2 ^ count ≤ 2 ^ 128

/-- An iteration keeps the invariant, and the number the loop still stands for. -/
theorem DivInv.divBody {d count : Nat} {l : DivLoop} (h : DivInv d (count + 1) l) :
    DivInv d count (divBody l) ∧
      (divBody l).q.toNat * 2 ^ count + (divBody l).n.toNat / d = l.q.toNat * 2 ^ (count + 1) + l.n.toNat / d ∧
      (divBody l).n.toNat % d = l.n.toNat % d := by
  obtain ⟨haligned, hbelow, hroom⟩ := h
  have hdd : l.dd.toNat = d * 2 ^ count := by rw [haligned, pow_succ, ← mul_assoc, Nat.mul_div_cancel _ two_pos]
  rw [pow_succ] at hbelow hroom ⊢
  have hpos : 0 < 2 ^ count := by positivity
  have hq : 2 * l.q.toNat < 2 ^ 128 := by nlinarith
  have hshift : (l.dd >>> 1).toNat = d * 2 ^ count / 2 := by rw [BitVec.toNat_ushiftRight, hdd]; rfl
  obtain hlt | hle := Nat.lt_or_ge l.n.toNat l.dd.toNat
  · rw [divBody_of_lt hlt]
    refine ⟨⟨hshift, hdd ▸ hlt, ?_⟩, ?_, rfl⟩
    · rw [toNat_shiftLeft_one hq]; nlinarith
    · rw [toNat_shiftLeft_one hq]; ring
  · have hsub : (l.n - l.dd).toNat = l.n.toNat - d * 2 ^ count := by rw [BitVec.toNat_sub_of_le hle, hdd]
    have hdiv := Nat.sub_mul_div l.n.toNat d (2 ^ count)
    have hge : 2 ^ count ≤ l.n.toNat / d := by
      have hd : 0 < d := Nat.pos_of_mul_pos_right (Nat.zero_lt_of_lt hbelow)
      rwa [Nat.le_div_iff_mul_le hd, mul_comm, ← hdd]
    rw [divBody_of_le hle]
    refine ⟨⟨hshift, ?_, ?_⟩, ?_, ?_⟩
    · rw [hsub, Nat.sub_lt_iff_lt_add (hdd ▸ hle)]; linarith
    · rw [toNat_shiftLeft_one_or_one hq]; linarith
    · rw [toNat_shiftLeft_one_or_one hq, hsub, hdiv]
      have : (2 * l.q.toNat + 1) * 2 ^ count = l.q.toNat * (2 ^ count * 2) + 2 ^ count := by ring
      omega
    · rw [hsub, Nat.sub_mul_mod (hdd ▸ hle)]

/-- The rest of the loop divides what is still to be divided. -/
theorem divRun_of_inv {d count : Nat} {l : DivLoop} (h : DivInv d count l) :
    (divRun count l).q.toNat = l.q.toNat * 2 ^ count + l.n.toNat / d ∧ (divRun count l).n.toNat = l.n.toNat % d := by
  induction count generalizing l with
  | zero =>
    have hlt : l.n.toNat < d := by simpa using h.below
    simp [divRun, Nat.div_eq_of_lt hlt, Nat.mod_eq_of_lt hlt]
  | succ count ih =>
    obtain ⟨hinv, hquot, hrem⟩ := h.divBody
    obtain ⟨hq, hn⟩ := ih hinv
    exact ⟨hq.trans hquot, hn.trans hrem⟩

/-- The start of case 4: the divisor is left-aligned with the dividend, and no bit of it is lost. -/
theorem divInv_divStart {n d : Value} (h : divSpecial n d = false) :
    DivInv d.toNat (divShift n d + 1) (divStart n d) := by
  obtain ⟨hd, hlt⟩ := divSpecial_eq_false.1 h
  have hdpos : d.toNat ≠ 0 := fun hzero => hd (BitVec.eq_of_toNat_eq hzero)
  have hnpos : n.toNat ≠ 0 := by omega
  have hn : n ≠ 0 := fun hzero => hnpos (by simp [hzero])
  have hle : d.toNat.log2 ≤ n.toNat.log2 := (Nat.le_log2 hnpos).2 ((Nat.log2_self_le hdpos).trans hlt.le)
  have hshift : divShift n d = n.toNat.log2 - d.toNat.log2 := by rw [divShift, lastset_eq_log2 hn, lastset_eq_log2 hd]
  have hpow : 2 ^ (d.toNat.log2 + 1) * 2 ^ divShift n d = 2 ^ (n.toNat.log2 + 1) := by
    rw [← pow_add, hshift]; congr 1; omega
  have hbound : 2 ^ (n.toNat.log2 + 1) ≤ 2 ^ 128 :=
    Nat.pow_le_pow_right two_pos ((Nat.log2_lt hnpos).2 n.isLt)
  have hfits : d.toNat * 2 ^ divShift n d < 2 ^ 128 :=
    calc d.toNat * 2 ^ divShift n d
        < 2 ^ (d.toNat.log2 + 1) * 2 ^ divShift n d := Nat.mul_lt_mul_of_pos_right Nat.lt_log2_self (by positivity)
      _ ≤ 2 ^ 128 := hpow.trans_le hbound
  constructor
  · rw [divStart, shl128_eq _ (divShift_le h), BitVec.toNat_shiftLeft, Nat.shiftLeft_eq, Nat.mod_eq_of_lt hfits, pow_succ,
      ← mul_assoc, Nat.mul_div_cancel _ two_pos]
  · calc n.toNat
        < 2 ^ (n.toNat.log2 + 1) := Nat.lt_log2_self
      _ = 2 ^ d.toNat.log2 * 2 ^ (divShift n d + 1) := by rw [← hpow]; ring
      _ ≤ d.toNat * 2 ^ (divShift n d + 1) := Nat.mul_le_mul_right _ (Nat.log2_self_le hdpos)
  · have := divShift_le h
    simpa [divStart] using Nat.pow_le_pow_right two_pos (show divShift n d + 1 ≤ 128 by omega)

/-- The division function is floor division (42_unsigned_divide.md rule R152). -/
theorem udiv_eq (n : Value) {d : Value} (hd : d ≠ 0) : udiv n d = (n / d, n % d) := by
  unfold udiv
  simp only [ucmp_eq_compare, Nat.compare_eq_gt]
  rw [if_neg hd]
  split_ifs with habove hequal
  · rw [BitVec.udiv_eq_zero_iff_eq_zero_or_lt.2 (.inr habove), BitVec.umod_eq_of_lt habove]; rfl
  · rw [← hequal, BitVec.udiv_self, BitVec.umod_self, if_neg (by simpa using hd)]; rfl
  · have hlt : d.toNat < n.toNat := lt_of_le_of_ne (Nat.not_lt.1 habove) fun heq => hequal (BitVec.eq_of_toNat_eq heq)
    obtain ⟨hq, hn⟩ := divRun_of_inv (divInv_divStart (divSpecial_eq_false.2 ⟨hd, hlt⟩))
    refine Prod.ext (BitVec.eq_of_toNat_eq ?_) (BitVec.eq_of_toNat_eq ?_)
    · rw [hq, BitVec.toNat_udiv]; simp [divStart]
    · rw [hn, BitVec.toNat_umod]; rfl

/-- Signed division is the sign wrapper of `BitVec` (45_signed.md rules R213, R222). -/
theorem sdiv_eq (a : Value) {b : Value} (hb : b ≠ 0) : sdiv a b = (a.sdiv b, a.srem b) := by
  have habs : uabs b ≠ 0 := by
    rw [uabs_eq]
    split_ifs
    · exact BitVec.neg_eq_zero_iff.not.2 hb
    · exact hb
  have hneg (v : Value) : isNeg v = v.msb := rfl
  rw [sdiv, udiv_eq _ habs, BitVec.sdiv_eq, BitVec.srem_eq]
  simp only [divSigned, neg128_eq, uabs_eq, hneg]
  cases a.msb <;> cases b.msb <;> rfl

end Sys2Proof.Machine

/-! PROOF. The pseudo-instructions (30_encoding.md rule R92): an assembled command is executed on the values of its operands. -/

namespace Sys2Proof.Machine

/-- Offering a command asks for its arm of `Exec`. -/
theorem execOf_request (i : Instr) (a b : Value) (amt : Amount) (hin : HexPort) :
    execOf (request i a b amt hin) = commandResult i a b amt (memoryOfPort hin) :=
  commandFn_of_decode (decode_encode i) a b amt (memoryOfPort hin)

theorem execOf_assembleOne (i : Instr) {a : AsmValue} {v : Value} (ha : assembleValue a = some v) :
    (assembleOne i a).map execOf = some (commandResult i v 0 0 (memoryOfPort 0)) := by
  rw [assembleOne, ha, Option.map_some, Option.map_some, execOf_request]

theorem execOf_assembleTwo (i : Instr) {a b : AsmValue} {v w : Value} (ha : assembleValue a = some v)
    (hb : assembleValue b = some w) :
    (assembleTwo i a b).map execOf = some (commandResult i v w 0 (memoryOfPort 0)) := by
  rw [assembleTwo, ha, hb, Option.bind_some, Option.map_some, Option.map_some, execOf_request]

theorem assembleValue_zero : assembleValue (.int 0) = some 0 := by decide

theorem assembleValue_one : assembleValue (.int 1) = some 1 := by decide

theorem assembleValue_minus_one : assembleValue (.int (-1)) = some (BitVec.allOnes 128) := by decide

theorem udiv_zero (n : Value) : udiv n 0 = (0, 0) := if_pos rfl

/-- The remainder UMOD reads. -/
theorem udivResult_r (v w : Value) : (udivResult v w).r = if w = 0 then 0 else v % w := by
  split_ifs with hw
  · rw [hw, udivResult, udiv_zero]; rfl
  · rw [udivResult, udiv_eq v hw]; rfl

/-- The remainder SREM reads. -/
theorem sdivResult_r (v w : Value) :
    (sdivResult v w).r = if w = 0 then 0 else BitVec.ofInt 128 (v.toInt.tmod w.toInt) := by
  split_ifs with hw
  · have habs : uabs w = 0 := by rw [hw]; decide
    rw [sdivResult, sdiv, habs, udiv_zero]
    simp [divResults, divSigned, neg128_eq]
  · rw [sdivResult, sdiv_eq v hw, ← BitVec.toInt_srem, BitVec.ofInt_toInt]; rfl

/-- Settles O60: each expansion is executed on its operands' values, where the datapath's closed forms give the table's result. -/
theorem pseudoCommandsGiveTheirResults : Obligations.PseudoCommandsGiveTheirResults := by
  intro a b v w ha hb
  refine ⟨?umov, ?uinc, ?udec, ?uneg, ?unot, ?umod, ?sneg, ?srem, ?sabs, ?nopchk⟩
  case umov => exact ⟨_, execOf_assembleTwo _ ha assembleValue_zero, rfl, (add128_eq v 0).trans (BitVec.add_zero v)⟩
  case uinc => exact ⟨_, execOf_assembleTwo _ ha assembleValue_one, rfl, add128_eq v 1⟩
  case udec => exact ⟨_, execOf_assembleTwo _ ha assembleValue_one, rfl, sub128_eq v 1⟩
  case uneg => exact ⟨_, execOf_assembleTwo _ assembleValue_zero ha, rfl, (sub128_eq 0 v).trans (BitVec.zero_sub v)⟩
  case unot =>
    exact ⟨_, execOf_assembleTwo _ assembleValue_minus_one ha, rfl, (sub128_eq _ v).trans (BitVec.allOnes_sub_eq_not v)⟩
  case umod => exact ⟨_, execOf_assembleTwo _ ha hb, rfl, udivResult_r v w⟩
  case sneg =>
    refine ⟨_, execOf_assembleTwo _ assembleValue_zero ha, rfl, ?_⟩
    rw [BitVec.ofInt_neg, BitVec.ofInt_toInt, ← BitVec.zero_sub]
    exact sub128_eq 0 v
  case srem => exact ⟨_, execOf_assembleTwo _ ha hb, rfl, sdivResult_r v w⟩
  case sabs => exact ⟨_, execOf_assembleOne _ ha, rfl, uabs_toNat v⟩
  case nopchk => exact ⟨_, execOf_assembleTwo _ assembleValue_zero assembleValue_zero, rfl⟩

end Sys2Proof.Machine

/-! PROOF. One edge by what the block is doing (40_execution.md rules R116 to R119): an accepting edge, an idle edge, and the edge of the command in progress,
which is either the completing edge of a command that is no division or an edge of the division engine. -/

namespace Sys2Proof.Machine

theorem commandFn_ok (cmd : CmdWord) (a b : Value) (amt : Amount) (hin : Memory) :
    ∃ r, commandFn cmd a b amt hin = .ok r := by
  cases hdec : decode cmd with
  | ok i => simpa only [commandFn_of_decode hdec] using commandResult_ok i a b amt hin
  | error e => exact ⟨_, commandFn_of_illegal hdec a b amt hin⟩

/-- Only the two divisions give the engine operands. -/
theorem division_of_divOperands {i : Instr} {a b : Value} {ops : Value × Value × Bool × Bool}
    (h : divOperands i a b = some ops) : (∃ hinP outP, i = .udiv hinP outP) ∨ ∃ hinP outP, i = .sdiv hinP outP := by
  cases i with
  | udiv hinP outP => exact .inl ⟨hinP, outP, rfl⟩
  | sdiv hinP outP => exact .inr ⟨hinP, outP, rfl⟩
  | _ => cases h

/-- The edge of a latched division is one edge of its engine. -/
theorem runCommand_division {s : State} {n d : Value} {qn rn : Bool} (hlatched : divisionLatched s n d qn rn) :
    runCommand s = .next (divEdge n d qn rn s) := by
  obtain ⟨i, hdec, hops⟩ := hlatched
  rw [runCommand, hdec]
  obtain ⟨hnone, -⟩ | ⟨n', d', qn', rn', hops', hexec⟩ := exec_cases i s
  · simp [hnone] at hops
  · obtain ⟨rfl, rfl, rfl, rfl⟩ : n = n' ∧ d = d' ∧ qn = qn' ∧ rn = rn' := by simpa [hops] using hops'
    exact hexec

/-- The edge of any other command, illegal words included, completes it with its `Exec` (40_execution.md rules R112, R118). -/
theorem runCommand_of_not_division {s : State} (hnot : ∀ n d qn rn, ¬ divisionLatched s n d qn rn) {r : Results}
    (hres : commandFn s.cmdL s.aL s.bL s.amtL s.hinL = .ok r) : runCommand s = .next (complete r s) := by
  cases hdec : decode s.cmdL with
  | ok i =>
    rw [commandFn_of_decode hdec] at hres
    rw [runCommand, hdec]
    obtain ⟨-, r', hres', hexec⟩ | ⟨n, d, qn, rn, hops, -⟩ := exec_cases i s
    · obtain rfl : r = r' := Except.ok.inj (hres.symm.trans hres')
      exact hexec
    · exact absurd ⟨i, hdec, hops⟩ (hnot n d qn rn)
  | error e =>
    rw [commandFn_of_illegal hdec] at hres
    obtain rfl := Except.ok.inj hres
    rw [runCommand, hdec]; rfl

/-- The edge of the command in progress writes no latch and uses up no pins. -/
theorem runCommand_keeps_latches {s t : State} (h : runCommand s = .next t) :
    t.inputs = s.inputs ∧ t.cmdL = s.cmdL ∧ t.aL = s.aL ∧ t.bL = s.bL ∧ t.amtL = s.amtL ∧ t.hinL = s.hinL := by
  by_cases hdiv : ∃ n d qn rn, divisionLatched s n d qn rn
  · obtain ⟨n, d, qn, rn, hlatched⟩ := hdiv
    obtain rfl := Host.Outcome.next.inj ((runCommand_division hlatched).symm.trans h)
    exact divEdge_keeps_latches n d qn rn s
  · obtain ⟨r, hres⟩ := commandFn_ok s.cmdL s.aL s.bL s.amtL s.hinL
    obtain rfl := Host.Outcome.next.inj ((runCommand_of_not_division (by simpa using hdiv) hres).symm.trans h)
    exact ⟨rfl, rfl, rfl, rfl, rfl, rfl⟩

/-- An idle block that is offered a command accepts it. -/
theorem step_accepting {s : State} (hrst : (sample s).rst = false) (hidle : s.busy = false)
    (hvalid : (sample s).reqValid = true) : step s = .next (accept (sample s) (advanceInputs s)) := by
  obtain ⟨h, -⟩ | ⟨-, -, -, h⟩ | ⟨-, h, -⟩ | ⟨-, -, h, -⟩ := clockEdge_cases s
  · simp [hrst] at h
  · exact h
  · simp [hidle] at h
  · simp [hvalid] at h

/-- An idle block that is offered nothing only sees the pins go by. -/
theorem step_idle {s : State} (hrst : (sample s).rst = false) (hidle : s.busy = false)
    (hvalid : (sample s).reqValid = false) : step s = .next (advanceInputs s) := by
  obtain ⟨h, -⟩ | ⟨-, -, h, -⟩ | ⟨-, h, -⟩ | ⟨-, -, -, h⟩ := clockEdge_cases s
  · simp [hrst] at h
  · simp [hvalid] at h
  · simp [hidle] at h
  · exact h

theorem step_division {s : State} (hrst : (sample s).rst = false) (hbusy : s.busy = true) {n d : Value} {qn rn : Bool}
    (hlatched : divisionLatched s n d qn rn) : step s = .next (divEdge n d qn rn (advanceInputs s)) :=
  (step_busy hrst hbusy).trans (runCommand_division (s := advanceInputs s) hlatched)

theorem step_of_not_division {s : State} (hrst : (sample s).rst = false) (hbusy : s.busy = true)
    (hnot : ∀ n d qn rn, ¬ divisionLatched s n d qn rn) {r : Results}
    (hres : commandFn s.cmdL s.aL s.bL s.amtL s.hinL = .ok r) : step s = .next (complete r (advanceInputs s)) :=
  (step_busy hrst hbusy).trans (runCommand_of_not_division (s := advanceInputs s) hnot hres)

/-- Settles O7: the accepting edge, and byte `i` of a latched port. -/
theorem acceptLatchesThePorts : Obligations.AcceptLatchesThePorts := by
  refine ⟨fun s p rest hin hrst hidle hvalid => ?_, memoryOfPort_get⟩
  obtain rfl := sample_of_inputs hin
  rw [step_accepting hrst hidle hvalid, accept, advanceInputs, hin, List.tail_cons]

/-- Settles O11: only a legal UDIV or SDIV latches a division, and every other command completes at once. -/
theorem singleEdgeCommandsCompleteAtTheNextEdge : Obligations.SingleEdgeCommandsCompleteAtTheNextEdge := by
  intro s hrst hbusy hudiv hsdiv
  have hnot : ∀ n d qn rn, ¬ divisionLatched s n d qn rn := by
    rintro n d qn rn ⟨i, hdec, hops⟩
    obtain ⟨h, o, rfl⟩ | ⟨h, o, rfl⟩ := division_of_divOperands hops
    · exact hudiv h o hdec
    · exact hsdiv h o hdec
  obtain ⟨r, hres⟩ := commandFn_ok s.cmdL s.aL s.bL s.amtL s.hinL
  exact ⟨r, hres, step_of_not_division hrst hbusy hnot hres⟩

/-- Settles O5: the edge of the command in progress is that of the command its word decodes to. -/
theorem stepRunsTheLatchedCommand : Obligations.StepRunsTheLatchedCommand := by
  intro s i hrst hbusy hdec
  rw [step_busy hrst hbusy, runCommand, advanceInputs_cmdL, hdec]

/-- Settles O8: an idle edge uses up the pins and does nothing else. -/
theorem idleEdgeChangesNoRegister : Obligations.IdleEdgeChangesNoRegister :=
  fun _ => step_idle

/-- Settles O9: while busy an edge reads of the pins `rst` alone, and runs the command, which writes no latch. -/
theorem offerWhileBusyIsForgotten : Obligations.OfferWhileBusyIsForgotten := by
  intro s p q rest hbusy hp hq
  have hstep : ∀ x : Pins, x.rst = false →
      step { s with inputs := x :: rest } = runCommand { s with inputs := rest } :=
    fun x hx => step_busy (s := { s with inputs := x :: rest }) hx hbusy
  refine ⟨(hstep p hp).trans (hstep q hq).symm, fun t ht => ?_⟩
  exact runCommand_keeps_latches ((hstep p hp).symm.trans ht)

end Sys2Proof.Machine

/-! PROOF. The ports a command does not read (40_execution.md rule R114): its arm of `Exec` does not mention them, and CLZ64 takes the low limb of A. -/

namespace Sys2Proof.Machine

theorem commandFn_encode (i : Instr) (a b : Value) (amt : Amount) (hin : Memory) :
    commandFn (encode i) a b amt hin = commandResult i a b amt hin :=
  commandFn_of_decode (decode_encode i) a b amt hin

theorem lo_pair (l h : Limb) : lo (pair l h) = l :=
  BitVec.extractLsb'_append_eq_right

/-- Settles O22: each arm of `Exec` is the same for the arguments it reads, whatever the others are. -/
theorem unreadPortsDoNotMatter : Obligations.UnreadPortsDoNotMatter := by
  intro h o h' o' a a' b b' amt amt' hin hin' l x x'
  simp only [commandFn_encode, List.forall_mem_cons, List.not_mem_nil, false_imp_iff, implies_true, and_true]
  refine ⟨?operandsAandB, ?shifts, ?operandA, ?clz64, ?tohex, ?fromhex⟩
  case operandsAandB => exact ⟨rfl, rfl, rfl, rfl, rfl, rfl, rfl, rfl, rfl, rfl⟩
  case shifts => exact ⟨rfl, rfl⟩
  case operandA => exact ⟨rfl, rfl, rfl, rfl⟩
  case clz64 => simp only [commandResult, clz64Result, lo_pair]
  case tohex => rfl
  case fromhex => rfl

end Sys2Proof.Machine

/-! PROOF. From the first edge after acceptance to completion (40_execution.md rules R115, R118, R120, 42_unsigned_divide.md rules R154 to R156): a command that
is no division completes at once, and a division counts its engine down along the course of the invariant. -/

namespace Sys2Proof.Machine

/-- A run from a busy `s` completes exactly `k` edges later with the results `r`, the loop at rest and the pins of `k` edges used up; until then the block
is busy and holds the old `DONE` and results. -/
structure CompletesAfter (r : Results) (k : Nat) (s : State) : Prop where
  completion : ∃ t, Sys2Proof.core.run k s = .next t ∧ t.busy = false ∧ t.done = true ∧ t.dvRun = false ∧
    resultRegs t = regsOf r ∧ t.inputs = s.inputs.drop k
  before : ∀ j < k, ∃ u, Sys2Proof.core.run j s = .next u ∧ u.busy = true ∧ u.done = s.done ∧ resultRegs u = resultRegs s

/-- The completing edge. -/
theorem CompletesAfter.one {r : Results} {s s' : State} (hstep : step s = .next (complete r s')) (hbusy : s.busy = true)
    (hrun : s'.dvRun = false) (hin : s'.inputs = s.inputs.tail) : CompletesAfter r 1 s where
  completion := by
    refine ⟨complete r s', ?_, rfl, rfl, hrun, rfl, ?_⟩
    · rw [core_run_succ hstep, core_run_zero]
    · rw [complete_inputs, hin, List.drop_one]
  before j hj := by
    obtain rfl : j = 0 := by omega
    exact ⟨s, core_run_zero s, hbusy, rfl, rfl⟩

/-- An edge before the completing one. -/
theorem CompletesAfter.succ {r : Results} {k : Nat} {s s' : State} (hstep : step s = .next s') (hbusy : s.busy = true)
    (hdone : s'.done = s.done) (hregs : resultRegs s' = resultRegs s) (hin : s'.inputs = s.inputs.tail)
    (h : CompletesAfter r k s') : CompletesAfter r (k + 1) s where
  completion := by
    obtain ⟨t, ht, htbusy, htdone, htrun, htregs, htin⟩ := h.completion
    refine ⟨t, (core_run_succ hstep).trans ht, htbusy, htdone, htrun, htregs, ?_⟩
    rw [htin, hin, List.drop_tail]
  before j hj := by
    cases j with
    | zero => exact ⟨s, core_run_zero s, hbusy, rfl, rfl⟩
    | succ j =>
      obtain ⟨u, hu, hubusy, hudone, huregs⟩ := h.before j (by omega)
      exact ⟨u, (core_run_succ hstep).trans hu, hubusy, hudone.trans hdone, huregs.trans hregs⟩

/-- No reset at the coming edge of a run free of resets, nor at the edges after it. -/
theorem noReset_succ {k : Nat} {s : State} (h : noReset (k + 1) s.inputs) :
    (sample s).rst = false ∧ noReset k s.inputs.tail := by
  unfold sample
  cases hin : s.inputs with
  | nil => exact ⟨rfl, by simp [noReset]⟩
  | cons p rest => simpa [noReset, hin] using h

/-- While the loop iterates on course, the count is the number of edges to completion (42_unsigned_divide.md rules R154, R156). -/
theorem completesAfter_of_onCourse {k : Nat} {s : State} {r : Results}
    (hres : commandFn s.cmdL s.aL s.bL s.amtL s.hinL = .ok r) (hbusy : s.busy = true) (hrun : s.dvRun = true)
    (hcourse : engineOnCourse s) (hcnt : s.dvCnt.toNat = k + 1) (hno : noReset (k + 1) s.inputs) :
    CompletesAfter r (k + 1) s := by
  induction k generalizing s with
  | zero =>
    have hlast : s.dvCnt = 1 := BitVec.eq_of_toNat_eq hcnt
    obtain ⟨n, d, hlatched, hend⟩ := engineOnCourse_last hcourse hlast
    have hstep := step_division (noReset_succ hno).1 hbusy hlatched
    obtain ⟨h, -⟩ | ⟨h, -⟩ | ⟨-, -, hedge⟩ | ⟨-, h, -⟩ := divEdge_cases n d s.dvQneg s.dvRneg (advanceInputs s)
    · simp [hrun] at h
    · simp [hrun] at h
    · obtain rfl := Except.ok.inj ((commandFn_of_divisionLatched hlatched).symm.trans hres)
      rw [hend]
      exact .one (hstep.trans (congrArg _ hedge)) hbusy rfl rfl
    · exact absurd hlast h
  | succ k ih =>
    have hmore : s.dvCnt ≠ 1 := fun h => by simp [h] at hcnt
    obtain ⟨hrst, hno'⟩ := noReset_succ hno
    have hkeep := engineOnCourse_divKeep (s := advanceInputs s) hcourse hmore
    obtain ⟨n, d, hlatched, -⟩ := hcourse
    have hstep := step_division hrst hbusy hlatched
    obtain ⟨h, -⟩ | ⟨h, -⟩ | ⟨-, h, -⟩ | ⟨-, -, hedge⟩ := divEdge_cases n d s.dvQneg s.dvRneg (advanceInputs s)
    · simp [hrun] at h
    · simp [hrun] at h
    · exact absurd h hmore
    · refine .succ (hstep.trans (congrArg _ hedge)) hbusy rfl rfl rfl (ih hres hbusy hrun hkeep ?_ hno')
      rw [divKeep_dvCnt, divCount_dvCnt, advanceInputs_dvCnt]
      bv_omega

theorem latency_of_divisionLatched {s : State} {n d : Value} {qn rn : Bool} (h : divisionLatched s n d qn rn) :
    latency s.cmdL s.aL s.bL = divLatency n d := by
  obtain ⟨i, hdec, hops⟩ := h
  simp only [latency, hdec, hops]

theorem latency_of_not_division {s : State} (h : ∀ n d qn rn, ¬ divisionLatched s n d qn rn) :
    latency s.cmdL s.aL s.bL = 1 := by
  unfold latency
  split
  next i hdec =>
    split
    next n d qn rn hops => exact absurd ⟨i, hdec, hops⟩ (h n d qn rn)
    next => rfl
  next => rfl

/-- A division just accepted: cases 1 to 3 complete at the setup edge, the general case loads the engine and iterates (42_unsigned_divide.md rule R155). -/
theorem completesAfter_divLatency {s : State} {r : Results} (hres : commandFn s.cmdL s.aL s.bL s.amtL s.hinL = .ok r)
    (hbusy : s.busy = true) (hrun : s.dvRun = false) {n d : Value} {qn rn : Bool} (hlatched : divisionLatched s n d qn rn)
    (hno : noReset (divLatency n d) s.inputs) : CompletesAfter r (divLatency n d) s := by
  unfold divLatency at hno ⊢
  obtain ⟨-, hspecial, hedge⟩ | ⟨-, hgen, hedge⟩ | ⟨h, -⟩ | ⟨h, -⟩ := divEdge_cases n d qn rn (advanceInputs s)
  · rw [if_pos hspecial] at hno ⊢
    have hstep := step_division (noReset_succ hno).1 hbusy hlatched
    obtain rfl := Except.ok.inj ((commandFn_of_divisionLatched hlatched).symm.trans hres)
    exact .one (hstep.trans (congrArg _ hedge)) hbusy hrun rfl
  · simp only [hgen, Bool.false_eq_true, if_false] at hno ⊢
    obtain ⟨hrst, hno'⟩ := noReset_succ hno
    have hstep := step_division hrst hbusy hlatched
    have hcourse : engineOnCourse (divLoad n d qn rn (advanceInputs s)) := engineOnCourse_divLoad hlatched hgen
    refine .succ (hstep.trans (congrArg _ hedge)) hbusy rfl rfl rfl
      (completesAfter_of_onCourse hres hbusy rfl hcourse ?_ hno')
    have hle := divShift_le hgen
    rw [divLoad_dvCnt, BitVec.toNat_ofNat]
    omega
  · simp [hrun] at h
  · simp [hrun] at h

/-- A command just accepted completes after its latency with its `Exec`, if no reset comes (40_execution.md rules R118, R120). -/
theorem completesAfter_latency {s : State} {r : Results} (hres : commandFn s.cmdL s.aL s.bL s.amtL s.hinL = .ok r)
    (hbusy : s.busy = true) (hrun : s.dvRun = false) (hno : noReset (latency s.cmdL s.aL s.bL) s.inputs) :
    CompletesAfter r (latency s.cmdL s.aL s.bL) s := by
  by_cases hdiv : ∃ n d qn rn, divisionLatched s n d qn rn
  · obtain ⟨n, d, qn, rn, hlatched⟩ := hdiv
    rw [latency_of_divisionLatched hlatched] at hno ⊢
    exact completesAfter_divLatency hres hbusy hrun hlatched hno
  · have hnot : ∀ n d qn rn, ¬ divisionLatched s n d qn rn := by simpa using hdiv
    rw [latency_of_not_division hnot] at hno ⊢
    exact .one (step_of_not_division (noReset_succ hno).1 hbusy hnot hres) hbusy hrun rfl

/-- Settles O18: either run completes after the latency of the latches with their `Exec`, and the latches are equal. -/
theorem resultsDependOnTheLatchesAlone : Obligations.ResultsDependOnTheLatchesAlone := by
  intro s s' hbusy hbusy' hrun hrun' hcmd ha hb hamt hhin hno hno'
  obtain ⟨r, hres⟩ := commandFn_ok s.cmdL s.aL s.bL s.amtL s.hinL
  obtain ⟨t, ht, -, hdone, -, hregs, -⟩ := (completesAfter_latency hres hbusy hrun hno).completion
  rw [hcmd, ha, hb] at hno'
  rw [hcmd, ha, hb, hamt, hhin] at hres
  obtain ⟨t', ht', -, hdone', -, hregs', -⟩ := (completesAfter_latency hres hbusy' hrun' hno').completion
  rw [← hcmd, ← ha, ← hb] at ht'
  exact ⟨t, t', ht, ht', hdone, hdone', hregs.trans hregs'.symm⟩

/-- Settles O19: the accepting edge latches the ports, and from there the command completes after its latency. -/
theorem acceptedCommandCompletesWithExec : Obligations.AcceptedCommandCompletesWithExec := by
  intro s p rest hin hidle hrun hrst hvalid hno
  obtain rfl := sample_of_inputs hin
  have hstep := step_accepting hrst hidle hvalid
  have hrest : (accept (sample s) (advanceInputs s)).inputs = rest := by simp [hin]
  obtain ⟨r, hres⟩ := commandFn_ok (sample s).reqCmd (sample s).reqA (sample s).reqB (sample s).reqAmt
    (memoryOfPort (sample s).reqHin)
  obtain ⟨⟨t, ht, hbusy, hdone, hstopped, hregs, hdrop⟩, hbefore⟩ :=
    completesAfter_latency (s := accept (sample s) (advanceInputs s)) hres rfl hrun (hrest ▸ hno)
  refine ⟨⟨r, t, hres, (core_run_succ hstep).trans ht, hbusy, hdone, hstopped, hregs, by rw [hdrop, hrest]; rfl⟩, ?_⟩
  intro k hpos hle
  obtain ⟨j, rfl⟩ := Nat.exists_eq_add_of_le' hpos
  obtain ⟨u, hu, hubusy, hudone, huregs⟩ := hbefore j hle
  exact ⟨u, (core_run_succ hstep).trans hu, hubusy, hudone, huregs⟩

end Sys2Proof.Machine

/-! PROOF. The limb datapath against the integers (41_unsigned_arith.md rules R130 to R134, R139, 45_signed.md rule R212): the carry and the borrow of
the low limbs, the multiplier and the signed comparator in closed form, and the laws that follow. -/

namespace Sys2Proof.Machine

/-- Settles O23: the limb adder is that of `BitVec`, and a low sum is below a summand exactly when it lost its 2^64. -/
theorem adderIsModular : Obligations.AdderIsModular := by
  intro a b
  refine ⟨add128_eq a b, ?_⟩
  rw [BitVec.toNat_add]
  omega

/-- Settles O24: the limb subtracter is that of `BitVec`, and a low difference is above the minuend exactly when it gained a 2^64. -/
theorem subtracterIsModular : Obligations.SubtracterIsModular := by
  intro a b
  refine ⟨sub128_eq a b, ?_⟩
  rw [BitVec.toNat_sub]
  omega

/-- The product of two limbs fits 128 bits (rule R132). -/
theorem mul64x64_toNat (x y : Limb) : (mul64x64 x y).toNat = x.toNat * y.toNat := by
  have hfits : x.toNat * y.toNat < 2 ^ 64 * 2 ^ 64 := Nat.mul_lt_mul'' x.isLt y.isLt
  rw [mul64x64, BitVec.toNat_ofNat]
  exact Nat.mod_eq_of_lt hfits

/-- Schoolbook multiplication: the product of the high limbs lies wholly above bit 127, and of the cross products only what lies below it counts
(rule R133). -/
theorem mul128_eq (a b : Value) : mul128 a b = a * b := by
  have hlow := toNat_eq_limbs (mul64x64 (lo a) (lo b))
  rw [mul64x64_toNat] at hlow
  have hschool : a.toNat * b.toNat = (hi a).toNat * (hi b).toNat * 2 ^ 128 +
      ((lo a).toNat * (hi b).toNat + (hi a).toNat * (lo b).toNat) * 2 ^ 64 + (lo a).toNat * (lo b).toNat := by
    rw [toNat_eq_limbs a, toNat_eq_limbs b]
    ring
  apply BitVec.eq_of_toNat_eq
  simp only [mul128, pair_toNat, BitVec.toNat_add, BitVec.toNat_mul, hschool]
  omega

/-- Settles O25: both products in closed form. -/
theorem multiplierIsExactThenTruncated : Obligations.MultiplierIsExactThenTruncated :=
  ⟨mul64x64_toNat, mul128_eq⟩

/-- A value read signed: its high limb carries the sign, its low limb is read unsigned. -/
theorem toInt_eq_limbs (v : Value) : v.toInt = (hi v).toInt * 2 ^ 64 + (lo v).toNat := by
  have hv := toNat_eq_limbs v
  rw [BitVec.toInt_eq_toNat_cond, BitVec.toInt_eq_toNat_cond]
  split_ifs <;> omega

theorem scmp_eq_compare (a b : Value) : scmp a b = compare a.toInt b.toInt := by
  have ha := toInt_eq_limbs a
  have hb := toInt_eq_limbs b
  have hla := (lo a).isLt
  have hlb := (lo b).isLt
  unfold scmp
  split_ifs
  · exact (compare_lt_iff_lt.2 (by omega)).symm
  · exact (compare_gt_iff_gt.2 (by omega)).symm
  · exact (compare_lt_iff_lt.2 (by omega)).symm
  · exact (compare_gt_iff_gt.2 (by omega)).symm
  · exact (compare_eq_iff_eq.2 (by omega)).symm

/-- Settles O26: both comparators are `compare` of the integers, which is antisymmetric. -/
theorem comparatorsAreTheIntegerOrders : Obligations.ComparatorsAreTheIntegerOrders := by
  intro a b
  refine ⟨ucmp_eq_compare a b, scmp_eq_compare a b, ?_, ?_⟩
  · simpa only [ucmp_eq_compare] using Std.OrientedCmp.eq_swap
  · simpa only [scmp_eq_compare] using Std.OrientedCmp.eq_swap

/-- Settles O31: the three operations are those of the ring of integers mod 2^128. -/
theorem arithmeticLaws : Obligations.ArithmeticLaws := by
  intro a b c
  simp only [add128_eq, sub128_eq, mul128_eq]
  exact ⟨BitVec.add_comm a b, BitVec.add_assoc a b c, BitVec.add_sub_cancel a b, BitVec.add_zero a,
    add_sub_cancel a 0, BitVec.mul_comm a b, BitVec.mul_assoc a b c, BitVec.mul_add, BitVec.mul_one a⟩

end Sys2Proof.Machine

/-! PROOF. What the single-edge unsigned commands write (41_unsigned_arith.md rules R135 to R138): the edge completes with the command's `Exec`, whose
limb operations have a closed form. -/

namespace Sys2Proof.Machine

/-- The edge of a command that is no division completes it with its `Exec`. -/
theorem exec_of_not_division {i : Instr} {s : State} {r : Results} (hnot : divOperands i s.aL s.bL = none)
    (hres : commandResult i s.aL s.bL s.amtL s.hinL = .ok r) :
    exec i s = .next (wrote (statusCode r.st) r.q r.r r.cmp r.hout s) := by
  obtain ⟨-, r', hres', hexec⟩ | ⟨n, d, qn, rn, hops, -⟩ := exec_cases i s
  · obtain rfl : r = r' := Except.ok.inj (hres.symm.trans hres')
    rw [hexec, complete_eq_wrote]
  · simp [hnot] at hops

/-- The two bits of a comparison (10_state.md rule R26). -/
theorem enc2_compare {α : Type} [LinearOrder α] (x y : α) :
    enc2 (compare x y) = if x < y then 0b11 else if x = y then 0b00 else 0b01 := by
  obtain hlt | heq | hgt := lt_trichotomy x y
  · rw [compare_lt_iff_lt.2 hlt, if_pos hlt]
    rfl
  · rw [compare_eq_iff_eq.2 heq, if_neg heq.not_lt, if_pos heq]
    rfl
  · rw [compare_gt_iff_gt.2 hgt, if_neg hgt.not_gt, if_neg hgt.ne']
    rfl

/-- Settles O41: UCMP completes with the comparator's answer, which is the order of the integers. -/
theorem ucmpWritesTheUnsignedOrder : Obligations.UcmpWritesTheUnsignedOrder := by
  refine ⟨decode_encode (.ucmp false false), fun h o s => ?_⟩
  rw [exec_of_not_division (i := .ucmp h o) rfl rfl]
  simp only [ucmpResult, ucmp_eq_compare, enc2_compare, BitVec.toNat_inj]
  rfl

/-- Settles O42: UADD completes with the limb adder's sum. -/
theorem uaddWritesTheSum : Obligations.UaddWritesTheSum := by
  refine ⟨decode_encode (.uadd false false), fun h o s => ?_⟩
  rw [exec_of_not_division (i := .uadd h o) rfl rfl, uaddResult, add128_eq]
  rfl

/-- Settles O43: USUB completes with the limb subtracter's difference. -/
theorem usubWritesTheDifference : Obligations.UsubWritesTheDifference := by
  refine ⟨decode_encode (.usub false false), fun h o s => ?_⟩
  rw [exec_of_not_division (i := .usub h o) rfl rfl, usubResult, sub128_eq]
  rfl

/-- Settles O44: UMUL completes with the truncated product. -/
theorem umulWritesTheProduct : Obligations.UmulWritesTheProduct := by
  refine ⟨decode_encode (.umul false false), fun h o s => ?_⟩
  rw [exec_of_not_division (i := .umul h o) rfl rfl, umulResult, mul128_eq]
  rfl

end Sys2Proof.Machine

/-! PROOF. The facts the shift-subtract loop rests on, and its closed form (42_unsigned_divide.md rules R151, R152). -/

namespace Sys2Proof.Machine

/-- The highest set bit of a greater value is no lower. -/
theorem lastset_mono {v w : Value} (hv : v ≠ 0) (hle : v.toNat ≤ w.toNat) : lastset v ≤ lastset w := by
  have hvpos : v.toNat ≠ 0 := BitVec.toNat_ne.1 hv
  have hwpos : w.toNat ≠ 0 := by omega
  have hw : w ≠ 0 := BitVec.toNat_ne.2 hwpos
  rw [lastset_eq_log2 hv, lastset_eq_log2 hw]
  exact (Nat.le_log2 hwpos).2 ((Nat.log2_self_le hvpos).trans hle)

/-- A product with a power of 2 that fits has its highest set bit that many places higher. -/
theorem lastset_of_toNat_eq_mul {v w : Value} (hv : v ≠ 0) {k : Nat} (hw : w.toNat = v.toNat * 2 ^ k) :
    lastset w = lastset v + k := by
  have hvpos : v.toNat ≠ 0 := BitVec.toNat_ne.1 hv
  have hwpos : w.toNat ≠ 0 := by rw [hw]; positivity
  have hwne : w ≠ 0 := BitVec.toNat_ne.2 hwpos
  rw [lastset_eq_log2 hv, lastset_eq_log2 hwne, Nat.log2_eq_iff hwpos, hw, Nat.add_right_comm, pow_add, pow_add]
  exact ⟨Nat.mul_le_mul_right _ (Nat.log2_self_le hvpos), Nat.mul_lt_mul_of_pos_right Nat.lt_log2_self (by positivity)⟩

/-- Left-aligning the divisor in case 4 loses no bit of it. -/
theorem toNat_shl128_divShift {n d : Value} (h : divSpecial n d = false) :
    (shl128 d (divShift n d)).toNat = d.toNat * 2 ^ divShift n d := by
  have haligned := (divInv_divStart h).aligned
  rwa [pow_succ, ← mul_assoc, Nat.mul_div_cancel _ two_pos] at haligned

/-- An iteration in closed form. -/
theorem divBody_eq (l : DivLoop) :
    divBody l = ⟨if l.dd.toNat ≤ l.n.toNat then l.n - l.dd else l.n, l.dd >>> 1,
      l.q <<< 1 ||| if l.dd.toNat ≤ l.n.toNat then 1 else 0⟩ := by
  split_ifs with hle
  · exact divBody_of_le hle
  · rw [divBody_of_lt (Nat.not_le.1 hle)]
    simp

/-- An iteration doubles the quotient and adds at most 1. -/
theorem divBody_q_le (l : DivLoop) : (divBody l).q.toNat ≤ 2 * l.q.toNat + 1 := by
  obtain hfits | hfull := Nat.lt_or_ge (2 * l.q.toNat) (2 ^ 128)
  · obtain hlt | hle := Nat.lt_or_ge l.n.toNat l.dd.toNat
    · rw [divBody_of_lt hlt, toNat_shiftLeft_one hfits]
      exact Nat.le_succ _
    · rw [divBody_of_le hle, toNat_shiftLeft_one_or_one hfits]
  · exact (divBody l).q.isLt.le.trans (Nat.le_succ_of_le hfull)

/-- The iterations append at most one bit each. -/
theorem divRun_q_lt (count : Nat) (l : DivLoop) : (divRun count l).q.toNat < (l.q.toNat + 1) * 2 ^ count := by
  induction count generalizing l with
  | zero => simp [divRun]
  | succ count ih =>
    calc (divRun count (divBody l)).q.toNat
        < ((divBody l).q.toNat + 1) * 2 ^ count := ih (divBody l)
      _ ≤ (2 * l.q.toNat + 1 + 1) * 2 ^ count := by gcongr; exact divBody_q_le l
      _ = (l.q.toNat + 1) * 2 ^ (count + 1) := by ring

/-- Settles O33: the shift is the distance of the highest set bits, and each iteration adds one bit to the quotient. -/
theorem divisionLoopLosesNoBit : Obligations.DivisionLoopLosesNoBit := by
  intro n d hd hlt
  have hgen := divSpecial_eq_false.2 ⟨hd, hlt⟩
  have hle := lastset_mono hd hlt.le
  have haligned := toNat_shl128_divShift hgen
  refine ⟨hle, divShift_le hgen, ?_, haligned, fun i _ => ?_⟩
  · rw [lastset_of_toNat_eq_mul hd haligned, divShift, Nat.add_sub_of_le hle]
  · simpa [divStart] using divRun_q_lt i (divStart n d)

/-- Settles O34: for a nonzero divisor the loop is the division of `BitVec`. -/
theorem unsignedDivisionClosedForm : Obligations.UnsignedDivisionClosedForm := by
  refine ⟨fun n d hpos => ?_, udiv_zero⟩
  have hd : d ≠ 0 := BitVec.toNat_ne.2 hpos
  rw [udiv_eq n hd, BitVec.toNat_udiv, BitVec.toNat_umod]
  exact ⟨rfl, rfl, (Nat.div_add_mod' _ _).symm, Nat.mod_lt _ (Nat.pos_of_ne_zero hpos)⟩

end Sys2Proof.Machine

/-! PROOF. The edges of a division (42_unsigned_divide.md rule R154): the command's edge is the engine's on the operands the command gives it, and UDIV run
to its end (rules R153, R155 to R157). -/

namespace Sys2Proof.Machine

/-- The edge of a division is one edge of its engine. -/
theorem exec_of_division {i : Instr} {s : State} {n d : Value} {qn rn : Bool}
    (hops : divOperands i s.aL s.bL = some (n, d, qn, rn)) : exec i s = .next (divEdge n d qn rn s) := by
  obtain ⟨hinP, outP, rfl⟩ | ⟨hinP, outP, rfl⟩ := division_of_divOperands hops
  all_goals cases hops; rfl

/-- In cases 1 to 3 a division completes at its first edge with its `Exec`. -/
theorem exec_division_of_special {i : Instr} {s : State} {n d : Value} {qn rn : Bool}
    (hops : divOperands i s.aL s.bL = some (n, d, qn, rn)) (hrun : s.dvRun = false) (hspecial : d = 0 ∨ n.toNat ≤ d.toNat) :
    exec i s = .next (complete (divResults (divSigned (udiv n d) qn rn)) s) := by
  obtain ⟨-, -, hedge⟩ | ⟨-, hgen, -⟩ | ⟨h, -⟩ | ⟨h, -⟩ := divEdge_cases n d qn rn s
  · rw [exec_of_division hops, hedge]
  · obtain ⟨hd, hlt⟩ := divSpecial_eq_false.1 hgen
    exact absurd hspecial (not_or_intro hd hlt.not_ge)
  · simp [hrun] at h
  · simp [hrun] at h

/-- The quotient UDIV writes, 0 for a zero divisor. -/
theorem udivResult_q (v w : Value) : (udivResult v w).q = v / w := by
  by_cases hw : w = 0
  · rw [hw, udivResult, udiv_zero]
    exact BitVec.udiv_zero.symm
  · rw [udivResult, udiv_eq v hw]; rfl

/-- Settles O45: the first edge completes with the division function, which is the floor division. -/
theorem udivCompletesAtOnceInCases1To3 : Obligations.UdivCompletesAtOnceInCases1To3 := by
  refine ⟨decode_encode (.udiv false false), fun h o s hrun => ?_⟩
  have hexec (hspecial : s.bL = 0 ∨ s.aL.toNat ≤ s.bL.toNat) :
      exec (.udiv h o) s = .next (wrote 0 (s.aL / s.bL) (if s.bL = 0 then 0 else s.aL % s.bL) 0b00 Memory.blank s) := by
    rw [← udivResult_q, ← udivResult_r]
    exact exec_division_of_special (i := .udiv h o) rfl hrun hspecial
  refine ⟨fun hzero => ?_, fun hne hle => ?_⟩
  · rw [hexec (.inl hzero), if_pos hzero, hzero, show s.aL / 0 = 0 from BitVec.udiv_zero]
  · rw [hexec (.inr hle), if_neg hne]

/-- Settles O47: in case 4 the first edge loads the engine, with the shift as the distance of the binary logarithms. -/
theorem divisionSetupLoadsTheEngine : Obligations.DivisionSetupLoadsTheEngine := by
  intro i s n d qn rn hops hrun hd hlt
  have hgen := divSpecial_eq_false.2 ⟨hd, hlt⟩
  have hn : n ≠ 0 := BitVec.toNat_ne.2 (Nat.ne_zero_of_lt hlt)
  rw [exec_of_division hops, ← lastset_eq_log2 hn, ← lastset_eq_log2 hd]
  obtain ⟨-, h, -⟩ | ⟨-, -, hedge⟩ | ⟨h, -⟩ | ⟨h, -⟩ := divEdge_cases n d qn rn s
  · simp [hgen] at h
  · rw [hedge, divLoad, divStart, shl128_eq d (divShift_le hgen)]; rfl
  · simp [hrun] at h
  · simp [hrun] at h

/-- Settles O48: both kinds of iteration, with the loop body in closed form. -/
theorem divisionIterationEdge : Obligations.DivisionIterationEdge := by
  intro i s n d qn rn hops hrun
  rw [exec_of_division hops]
  refine ⟨fun hmore => ?_, fun hlast => ?_⟩
  · obtain ⟨h, -⟩ | ⟨h, -⟩ | ⟨-, h, -⟩ | ⟨-, -, hedge⟩ := divEdge_cases n d qn rn s
    · simp [hrun] at h
    · simp [hrun] at h
    · exact absurd h hmore
    · rw [hedge, divBody_eq, divKeep, divCount, shr128_eq _ (by decide)]
  · obtain ⟨h, -⟩ | ⟨h, -⟩ | ⟨-, -, hedge⟩ | ⟨-, h, -⟩ := divEdge_cases n d qn rn s
    · simp [hrun] at h
    · simp [hrun] at h
    · rw [hedge, divBody_eq, complete_eq_wrote, divStop, divCount, shr128_eq _ (by decide), hlast]
      simp only [divSigned, neg128_eq]
      rfl
    · exact absurd hlast h

/-- Settles O49: UDIV completes after its latency with its `Exec`, which is the floor division. -/
theorem udivRunsToQuotientAndRemainder : Obligations.UdivRunsToQuotientAndRemainder := by
  refine ⟨decode_encode (.udiv false false), fun s h o hbusy hrun hdec hno => ?_⟩
  have hres : commandFn s.cmdL s.aL s.bL s.amtL s.hinL = .ok (udivResult s.aL s.bL) := commandFn_of_decode hdec ..
  obtain ⟨t, ht, htbusy, htdone, -, hregs, -⟩ := (completesAfter_latency hres hbusy hrun hno).completion
  refine ⟨t, ht, htbusy, htdone, ?_⟩
  rw [hregs, ← udivResult_q, ← udivResult_r]
  rfl

end Sys2Proof.Machine

/-! PROOF. The barrel shifter in numbers (43_shift_bitlen.md rules R170, R171) and the laws of the shifts (rule R179). -/

namespace Sys2Proof.Machine

theorem shl128_toNat (v : Value) {n : Nat} (h : n ≤ 127) : (shl128 v n).toNat = v.toNat * 2 ^ n % 2 ^ 128 := by
  rw [shl128_eq v h, BitVec.toNat_shiftLeft, Nat.shiftLeft_eq]

theorem shr128_toNat (v : Value) {n : Nat} (h : n ≤ 127) : (shr128 v n).toNat = v.toNat / 2 ^ n := by
  rw [shr128_eq v h, BitVec.toNat_ushiftRight, Nat.shiftRight_eq_div_pow]

/-- Settles O28: in range both branches of the shifter are the shifts of `BitVec`. -/
theorem shifterMultipliesAndDividesByPowers : Obligations.ShifterMultipliesAndDividesByPowers :=
  fun v _ h => ⟨shl128_toNat v h, shr128_toNat v h⟩

/-- A 1 shifted left in range is a power of 2. -/
theorem shl128_one_toNat {n : Nat} (h : n ≤ 127) : (shl128 1 n).toNat = 2 ^ n := by
  rw [shl128_toNat 1 h, show (1 : Value).toNat = 1 from rfl, one_mul]
  exact Nat.mod_eq_of_lt (Nat.pow_lt_pow_right one_lt_two (by omega))

theorem shl128_eq_mul128 (v : Value) {n : Nat} (h : n ≤ 127) : shl128 v n = mul128 v (shl128 1 n) := by
  rw [mul128_eq, shl128_eq v h, shl128_eq 1 h]
  exact BitVec.shiftLeft_eq_mul_twoPow v n

/-- Shifting left and back clears the `n` bits that fell off at the top. -/
theorem shr128_shl128 (v : Value) {n : Nat} (h : n ≤ 127) : shr128 (shl128 v n) n = v &&& shr128 max128 n := by
  simp only [shr128_eq _ h, shl128_eq _ h, max128]
  apply BitVec.eq_of_getLsbD_eq
  intro k _
  have hindex : n + k - n = k := by omega
  simp only [BitVec.getLsbD_ushiftRight, BitVec.getLsbD_shiftLeft, BitVec.getLsbD_and, BitVec.getLsbD_allOnes, hindex]
  simp [Bool.and_comm]

/-- Shifting right and back clears the `n` bits that fell off at the bottom. -/
theorem shl128_shr128 (v : Value) {n : Nat} (h : n ≤ 127) : shl128 (shr128 v n) n = v &&& shl128 max128 n := by
  simp only [shr128_eq _ h, shl128_eq _ h, max128]
  exact BitVec.shiftLeft_ushiftRight

/-- The highest set bit alone has that bit as its highest. -/
theorem lastset_shl128_one {n : Nat} (h : n ≤ 127) : lastset (shl128 1 n) = n := by
  have hpow := shl128_one_toNat h
  have hne : shl128 1 n ≠ 0 := BitVec.toNat_ne.2 (hpow.trans_ne (by positivity))
  rw [lastset_eq_log2 hne, hpow, Nat.log2_two_pow]

/-- The highest set bit brackets a nonzero value (rule R173). -/
theorem lastset_eq_iff {v : Value} (hv : v ≠ 0) {k : Nat} :
    lastset v = k ↔ 2 ^ k ≤ v.toNat ∧ v.toNat < 2 ^ (k + 1) := by
  rw [lastset_eq_log2 hv, Nat.log2_eq_iff (BitVec.toNat_ne.1 hv)]

/-- Settles O32: the laws of the shifts, and the bracket of the highest set bit. -/
theorem shiftLaws : Obligations.ShiftLaws := by
  refine ⟨fun v n h => ⟨shl128_eq_mul128 v h, shr128_shl128 v h, shl128_shr128 v h⟩, ?_, fun v hv => ?_⟩
  · rw [shl128_eq _ le_rfl]; decide
  · have hle := lastset_le hv
    obtain ⟨hlow, hhigh⟩ := (lastset_eq_iff hv).1 rfl
    rw [shl128_one_toNat hle]
    exact ⟨lastset_shl128_one hle, hlow, by rwa [mul_comm, ← pow_succ]⟩

end Sys2Proof.Machine

/-! PROOF. The count of leading zeros in closed form, and the highest set bit of a value from those of its limbs (43_shift_bitlen.md rules R172, R173). -/

namespace Sys2Proof.Machine

theorem toNat_ne_zero_of_bit {w : Nat} {v : BitVec w} {k : Nat} (hset : v.getLsbD k = true) : v.toNat ≠ 0 :=
  Nat.ne_zero_of_lt ((Nat.two_pow_pos k).trans_le (Nat.ge_two_pow_of_testBit hset))

theorem log2_eq_of_highest_bit {w : Nat} {v : BitVec w} {k : Nat} (hset : v.getLsbD k = true)
    (habove : ∀ j, k < j → v.getLsbD j = false) : v.toNat.log2 = k :=
  (Nat.log2_eq_iff (toNat_ne_zero_of_bit hset)).2 ⟨Nat.ge_two_pow_of_testBit hset, Nat.lt_pow_two_of_testBit _ habove⟩

theorem clz64_eq (x : Limb) : clz64 x = if x.toNat = 0 then 64 else 63 - x.toNat.log2 := by
  unfold clz64
  split
  next k hk =>
    obtain ⟨hset, habove⟩ := highestSetBelow_some hk
    have hlog : x.toNat.log2 = k := log2_eq_of_highest_bit hset fun j hj => by
      obtain hlt | hge := Nat.lt_or_ge j 64
      · exact habove j hj hlt
      · exact BitVec.getLsbD_of_ge x j hge
    rw [if_neg (toNat_ne_zero_of_bit hset), hlog]
  next hnone =>
    have hzero : x = 0 := BitVec.eq_of_getLsbD_eq fun k hk => by
      simpa using getLsbD_of_highestSetBelow_none hnone hk
    rw [hzero]; rfl

theorem log2_limb_le (x : Limb) : x.toNat.log2 ≤ 63 := by
  obtain hzero | hne := eq_or_ne x.toNat 0
  · simp [hzero]
  · exact Nat.le_of_lt_succ ((Nat.log2_lt hne).2 x.isLt)

/-- Settles O29: the closed form of the count, and the highest set bit as the binary logarithm. -/
theorem leadingZerosCountFromTheHighestBit : Obligations.LeadingZerosCountFromTheHighestBit := by
  refine ⟨?_, fun x => ?_, fun x k hset habove => ?_⟩
  · rw [clz64_eq]; rfl
  · rw [clz64_eq]; split_ifs <;> omega
  · rw [clz64_eq, if_neg (toNat_ne_zero_of_bit hset), log2_eq_of_highest_bit hset habove]

/-- A nonzero high limb holds the highest set bit, 64 places up. -/
theorem log2_eq_log2_hi {v : Value} (h : (hi v).toNat ≠ 0) : v.toNat.log2 = (hi v).toNat.log2 + 64 := by
  have hv := toNat_eq_limbs v
  have hlow := Nat.log2_self_le h
  have hhigh : (hi v).toNat < 2 ^ ((hi v).toNat.log2 + 1) := Nat.lt_log2_self
  rw [Nat.log2_eq_iff (by omega), Nat.add_right_comm, pow_add, pow_add]
  omega

/-- What the leading-zero counts of the limbs give is the highest set bit of the value. -/
theorem lastset_eq_of_clz64 {v : Value} (hv : v ≠ 0) :
    lastset v = if hi v ≠ 0 then 127 - clz64 (hi v) else 63 - clz64 (lo v) := by
  have hlimbs := toNat_eq_limbs v
  have hvpos : v.toNat ≠ 0 := BitVec.toNat_ne.1 hv
  rw [lastset_eq_log2 hv]
  split_ifs with hhi
  · have hpos : (hi v).toNat ≠ 0 := BitVec.toNat_ne.1 hhi
    have hle := log2_limb_le (hi v)
    rw [clz64_eq, if_neg hpos, log2_eq_log2_hi hpos]
    omega
  · have hzero : (hi v).toNat = 0 := congrArg BitVec.toNat (not_not.1 hhi)
    have hlo : v.toNat = (lo v).toNat := by omega
    have hle := log2_limb_le (lo v)
    rw [clz64_eq, if_neg (hlo ▸ hvpos), hlo]
    omega

/-- Settles O30: the highest set bit is the binary logarithm, by the value and by its limbs. -/
theorem highestSetBitBracketsTheValue : Obligations.HighestSetBitBracketsTheValue := by
  intro v hv
  obtain ⟨hlow, hhigh⟩ := (lastset_eq_iff hv).1 rfl
  exact ⟨lastset_le hv, hlow, hhigh, fun k hk hk' => ((lastset_eq_iff hv).2 ⟨hk, hk'⟩).symm, lastset_eq_of_clz64 hv⟩

end Sys2Proof.Machine

/-! PROOF. What USHL, USHR, CLZ64 and LASTSET write (43_shift_bitlen.md rules R174 to R178): the edge completes with the command's `Exec`, whose shifter and
counters have a closed form. -/

namespace Sys2Proof.Machine

theorem amtOk_eq_true {amt : Amount} : amtOk amt = true ↔ 0 ≤ amt.toInt ∧ amt.toInt ≤ 127 := by
  simp [amtOk]

/-- An amount that is not negative is the same read signed and unsigned. -/
theorem amount_eq_toNat {amt : Amount} (h : 0 ≤ amt.toInt) : amount amt = amt.toNat :=
  BitVec.toNat_toInt_of_sle (by simpa [BitVec.sle] using h)

theorem amt_toNat_le {amt : Amount} (hlow : 0 ≤ amt.toInt) (hhigh : amt.toInt ≤ 127) : amt.toNat ≤ 127 := by
  rw [← amount_eq_toNat hlow]
  exact Int.toNat_le.2 hhigh

/-- The edge of a command that shifts A by AMT: the shifted value in range, `ERR_RANGE` outside it. -/
theorem exec_of_shift {i : Instr} {s : State} (shift : Value → Nat → Value) (hnot : divOperands i s.aL s.bL = none)
    (hres : commandResult i s.aL s.bL s.amtL s.hinL =
      .ok (if amtOk s.amtL then { okDefaults with q := shift s.aL (amount s.amtL) } else failed .errRange)) :
    (0 ≤ s.amtL.toInt → s.amtL.toInt ≤ 127 →
      exec i s = .next (wrote 0 (shift s.aL s.amtL.toNat) 0 0b00 Memory.blank s)) ∧
    (s.amtL.toInt < 0 ∨ 127 < s.amtL.toInt → exec i s = .next (wrote 3 0 0 0b00 Memory.blank s)) := by
  rw [exec_of_not_division hnot hres]
  refine ⟨fun hlow hhigh => ?_, fun hout => ?_⟩
  · rw [if_pos (amtOk_eq_true.2 ⟨hlow, hhigh⟩), amount_eq_toNat hlow]
    rfl
  · have hbad : ¬ amtOk s.amtL = true := by rw [amtOk_eq_true]; omega
    rw [if_neg hbad]
    rfl

/-- Settles O51: USHL shifts by the left shifter, which in range is the shift of `BitVec`. -/
theorem ushlWritesTheShiftedValue : Obligations.UshlWritesTheShiftedValue := by
  refine ⟨decode_encode (.ushl false false), fun h o s => ?_⟩
  obtain ⟨hin, hout⟩ := exec_of_shift (i := .ushl h o) (s := s) shl128 rfl rfl
  exact ⟨fun hlow hhigh => shl128_eq s.aL (amt_toNat_le hlow hhigh) ▸ hin hlow hhigh, hout⟩

/-- Settles O52: USHR shifts by the right shifter, which in range is the zero-filling shift of `BitVec`. -/
theorem ushrWritesTheShiftedValue : Obligations.UshrWritesTheShiftedValue := by
  refine ⟨decode_encode (.ushr false false), fun h o s => ?_⟩
  obtain ⟨hin, hout⟩ := exec_of_shift (i := .ushr h o) (s := s) shr128 rfl rfl
  exact ⟨fun hlow hhigh => shr128_eq s.aL (amt_toNat_le hlow hhigh) ▸ hin hlow hhigh, hout⟩

theorem lo_toNat (v : Value) : (lo v).toNat = v.toNat % 2 ^ 64 := by
  simp [lo]

/-- Settles O53: CLZ64 completes with the closed form of the count on the low limb. -/
theorem clz64WritesTheLeadingZeros : Obligations.Clz64WritesTheLeadingZeros := by
  refine ⟨decode_encode (.clz64 false false), fun h o s => ?_⟩
  rw [exec_of_not_division (i := .clz64 h o) rfl rfl, clz64Result, clz64_eq, lo_toNat]
  rfl

/-- Settles O54: LASTSET completes with the binary logarithm, and with `ERR_ZERO` where there is none. -/
theorem lastsetWritesTheHighestBit : Obligations.LastsetWritesTheHighestBit := by
  refine ⟨decode_encode (.lastset false false), fun h o s => ⟨fun hne => ?_, fun hzero => ?_⟩⟩
  · rw [exec_of_not_division (i := .lastset h o) rfl rfl, lastsetResult, if_neg hne, lastset_eq_log2 hne]
    rfl
  · rw [exec_of_not_division (i := .lastset h o) rfl rfl, lastsetResult, if_pos hzero]
    rfl

end Sys2Proof.Machine

/-! PROOF. The hex codec (44_hex_codec.md rules R190 to R198): the string of a value by "0x", its 32 digits and its terminator, the two directions
of the round trip, and what the window of a terminated string decides. -/

namespace Sys2Proof.Machine

/-- `nibble` is defined on the digit codes alone. -/
theorem nibble_eq_some_iff {c : Byte} {d : BitVec 4} : nibble c = some d ↔ digit d = c := by
  refine ⟨fun h => ?_, fun h => h ▸ nibble_digit d⟩
  unfold nibble at h
  unfold digit
  split_ifs at h with hdecimal hletter
  · obtain rfl := Option.some.inj h
    rw [if_pos (by bv_omega)]
    bv_omega
  · obtain rfl := Option.some.inj h
    rw [if_neg (by bv_omega)]
    bv_omega

/-- A digit's code as a number. -/
theorem digit_toNat (d : BitVec 4) :
    (digit d).toNat = if d.toNat ≤ 9 then 0x30 + d.toNat else 0x61 + d.toNat - 10 := by
  unfold digit
  split_ifs <;> bv_omega

/-- No digit is the terminator. -/
theorem digit_ne_zero (d : BitVec 4) : digit d ≠ 0 := by
  revert d; decide

theorem digit_injective : Function.Injective digit := fun d e h =>
  Option.some.inj (by rw [← nibble_digit d, h, nibble_digit e])

/-- Settles O38: the 16 codes by evaluation, and the inverse by the two ranges of `nibble`. -/
theorem digitsAndNibblesInvert : Obligations.DigitsAndNibblesInvert :=
  ⟨by decide, fun _ _ => nibble_eq_some_iff⟩

/-- Nibble `k` of a value, counted from the top (44_hex_codec.md rule R192). -/
def nibbleAt (v : Value) (k : Nat) : BitVec 4 := v.extractLsb' (124 - 4 * k) 4

theorem nibbleAt_toNat (v : Value) {k : Nat} (hk : k < 32) : (nibbleAt v k).toNat = v.toNat / 16 ^ (31 - k) % 16 := by
  have hplace : 124 - 4 * k = 4 * (31 - k) := by omega
  rw [nibbleAt, BitVec.extractLsb'_toNat, Nat.shiftRight_eq_div_pow, hplace, pow_mul]
  rfl

/-- Four bits of a limb are four bits of the value. -/
theorem extractLsb'_of_limb (v : Value) (start : Nat) {i : Nat} (hfits : i + 4 ≤ 64) :
    (v.extractLsb' start 64).extractLsb' i 4 = v.extractLsb' (start + i) 4 := by
  apply BitVec.eq_of_getLsbD_eq
  intro j hj
  have hlimb : i + j < 64 := by omega
  simp [hlimb, Nat.add_assoc]

/-- The first 16 nibbles are those of the high limb. -/
theorem nibbleAt_eq_hi (v : Value) {k : Nat} (hk : k < 16) : nibbleAt v k = (hi v).extractLsb' (60 - 4 * k) 4 := by
  rw [nibbleAt, hi, extractLsb'_of_limb v 64 (by omega)]
  congr 1; omega

/-- The last 16 nibbles are those of the low limb. -/
theorem nibbleAt_eq_lo (v : Value) {k : Nat} (hk : k < 16) : nibbleAt v (16 + k) = (lo v).extractLsb' (60 - 4 * k) 4 := by
  rw [nibbleAt, lo, extractLsb'_of_limb v 0 (by omega)]
  congr 1; omega

/-- A value is its 32 nibbles. -/
theorem ext_nibbleAt {v w : Value} (h : ∀ k : Fin 32, nibbleAt v k = nibbleAt w k) : v = w := by
  apply BitVec.eq_of_getLsbD_eq
  intro j hj
  have hbit := congrArg (fun n => n.getLsbD (j % 4)) (h ⟨31 - j / 4, by omega⟩)
  have hindex : 124 - 4 * (31 - j / 4) + j % 4 = j := by omega
  simpa [nibbleAt, Nat.mod_lt, hindex] using hbit

theorem hexenc_digit (v : Value) (k : Fin 32) : hexenc v ⟨2 + k, by omega⟩ = digit (nibbleAt v k) := by
  unfold hexenc nibbleAt
  rw [if_neg (by simp), if_neg (by simp; omega), if_neg (by simp; omega), Nat.add_sub_cancel_left]

/-- The place of digit `k` of the low limb, counted among all 32 digits. -/
theorem place_of_low_digit (k : Fin 16) : (⟨2 + (k.natAdd 16 : Fin 32), by omega⟩ : Fin 35) = ⟨18 + k, by omega⟩ :=
  Fin.ext (Nat.add_assoc 2 16 k).symm

/-- Settles O37: each limb's nibbles are nibbles of the value. -/
theorem hexStringLayout : Obligations.HexStringLayout := by
  refine fun v => ⟨rfl, rfl, rfl, fun k => ?_, fun k => ?_⟩
  · rw [← nibbleAt_eq_hi v k.isLt]
    exact hexenc_digit v (k.castLE (by decide))
  · rw [← nibbleAt_eq_lo v k.isLt]
    exact place_of_low_digit k ▸ hexenc_digit v (k.natAdd 16)

/-- A place in the string is one of the two of "0x", a digit's or the terminator's (rule R190). -/
theorem hexString_index_cases {P : Fin 35 → Prop} (first : P 0) (second : P 1)
    (digit : ∀ k : Fin 32, P ⟨2 + k, by omega⟩) (last : P 34) (i : Fin 35) : P i := by
  obtain rfl | rfl | rfl | ⟨k, rfl⟩ : i = 0 ∨ i = 1 ∨ i = 34 ∨ ∃ k : Fin 32, i = ⟨2 + k, by omega⟩ := by
    by_cases hdigit : 2 ≤ i.val ∧ i.val < 34
    · exact .inr (.inr (.inr ⟨⟨i - 2, by omega⟩, Fin.ext (Nat.add_sub_cancel' hdigit.1).symm⟩))
    · omega
  · exact first
  · exact second
  · exact last
  · exact digit k

theorem hexenc_injective : Function.Injective hexenc := fun v w h =>
  ext_nibbleAt fun k => digit_injective (by rw [← hexenc_digit, h, hexenc_digit])

/-- The terminator is the only zero byte of an encoded value. -/
theorem hexenc_eq_zero_iff (v : Value) (i : Fin 35) : hexenc v i = 0 ↔ i = 34 := by
  induction i using hexString_index_cases with
  | first => exact iff_of_false (by decide : (0x30 : Byte) ≠ 0) (by decide)
  | second => exact iff_of_false (by decide : (0x78 : Byte) ≠ 0) (by decide)
  | digit k =>
    rw [hexenc_digit]
    exact iff_of_false (digit_ne_zero _) (Fin.ne_of_lt (Nat.add_lt_add_left k.isLt 2))
  | last => exact iff_of_true rfl rfl

/-- The window test of rule R194, part by part. -/
theorem hexvalid_iff (str : HexString) : hexvalid str = true ↔
    str 0 = 0x30 ∧ str 1 = 0x78 ∧ (∀ k : Fin 32, (nibble (str ⟨2 + k, by omega⟩)).isSome = true) ∧ str 34 = 0x00 := by
  simp [hexvalid, and_assoc]

theorem hexvalid_hexenc (v : Value) : hexvalid (hexenc v) = true :=
  (hexvalid_iff _).2 ⟨rfl, rfl, fun k => by rw [hexenc_digit, nibble_digit]; rfl, rfl⟩

theorem hi_pair (l h : Limb) : hi (pair l h) = h :=
  BitVec.extractLsb'_append_eq_left

/-- The nibbles of a decoded string are those its digits stand for (rule R195). -/
theorem nibbleAt_hexdec {str : HexString} {f : Fin 32 → BitVec 4} (h : ∀ k : Fin 32, str ⟨2 + k, by omega⟩ = digit (f k))
    (k : Fin 32) : nibbleAt (hexdec str) k = f k := by
  induction k using Fin.addCases (m := 16) (n := 16) with
  | left k =>
    have hdigits : (fun k : Fin 16 => str ⟨2 + k, by omega⟩) = fun k => digit (f (k.castAdd 16)) :=
      funext fun k => h (k.castAdd 16)
    rw [Fin.val_castAdd, nibbleAt_eq_hi _ k.isLt, hexdec, hi_pair, hdigits]
    exact hexLimb_nibble (fun k => f (k.castAdd 16)) k
  | right k =>
    have hdigits : (fun k : Fin 16 => str ⟨18 + k, by omega⟩) = fun k => digit (f (k.natAdd 16)) :=
      funext fun k => place_of_low_digit k ▸ h (k.natAdd 16)
    rw [Fin.val_natAdd, nibbleAt_eq_lo _ k.isLt, hexdec, lo_pair, hdigits]
    exact hexLimb_nibble (fun k => f (k.natAdd 16)) k

/-- A valid string is the encoding of the value it decodes to. -/
theorem hexenc_hexdec {str : HexString} (h : hexvalid str = true) : hexenc (hexdec str) = str := by
  obtain ⟨hzero, hx, hdigits, hend⟩ := (hexvalid_iff str).1 h
  choose f hf using fun k => Option.isSome_iff_exists.1 (hdigits k)
  have hcode (k : Fin 32) := (nibble_eq_some_iff.1 (hf k)).symm
  funext i
  induction i using hexString_index_cases with
  | first => exact hzero.symm
  | second => exact hx.symm
  | digit k => rw [hexenc_digit, nibbleAt_hexdec hcode, hcode]
  | last => exact hend.symm

theorem hexdec_hexenc (v : Value) : hexdec (hexenc v) = v :=
  hexenc_injective (hexenc_hexdec (hexvalid_hexenc v))

/-- Settles O39: an encoded value is valid and the encoding of what it decodes to, and encoding is injective. -/
theorem hexRoundTrip : Obligations.HexRoundTrip :=
  ⟨fun v => ⟨hexvalid_hexenc v, hexdec_hexenc v⟩, fun _ => hexenc_hexdec⟩

/-- In a valid string the terminator is the only zero byte. -/
theorem eq_zero_iff_of_hexvalid {str : HexString} (h : hexvalid str = true) (i : Fin 35) : str i = 0 ↔ i = 34 := by
  rw [← hexenc_hexdec h]
  exact hexenc_eq_zero_iff _ i

section Window

variable {t after : List Byte} {str : HexString}

/-- The window shows the terminated string as far as it reaches. -/
theorem window_eq_string (hwindow : ∀ i : Fin 35, str i = (t ++ 0 :: after).getD i 0) {i : Fin 35}
    (hle : i.val ≤ t.length) : str i = t.getD i 0 := by
  rw [hwindow]
  obtain hlt | heq := Nat.lt_or_eq_of_le hle
  · exact List.getD_append _ _ _ _ hlt
  · simp [heq]

/-- A valid window holds the terminator of `t` at its last place. -/
theorem length_eq_of_hexvalid (hnul : (0 : Byte) ∉ t) (hwindow : ∀ i : Fin 35, str i = (t ++ 0 :: after).getD i 0)
    (hvalid : hexvalid str = true) : t.length = 34 := by
  have hterm := eq_zero_iff_of_hexvalid hvalid
  obtain hlong | hshort := Nat.lt_or_ge 34 t.length
  · have hzero : t.getD 34 0 = 0 := (window_eq_string hwindow (i := 34) hlong.le).symm.trans ((hterm 34).2 rfl)
    rw [List.getD_eq_getElem _ _ hlong] at hzero
    exact absurd (hzero ▸ List.getElem_mem hlong) hnul
  · have hzero : str ⟨t.length, by omega⟩ = 0 := by
      rw [window_eq_string hwindow le_rfl]
      exact List.getD_eq_default _ _ le_rfl
    exact congrArg Fin.val ((hterm _).1 hzero)

end Window

/-- Settles O40: a valid window has its only zero byte at 34, so `t` ends there; and for such a `t` the window's characters are those of `t`. -/
theorem windowDecidesLikeTheLengthCheck : Obligations.WindowDecidesLikeTheLengthCheck := by
  intro t after str hnul _ hwindow
  have hparts (hlen : t.length = 34) : hexvalid str = true ↔
      t.getD 0 0 = 0x30 ∧ t.getD 1 0 = 0x78 ∧ ∀ k : Fin 32, (nibble (t.getD (2 + k) 0)).isSome = true := by
    have hchar (i : Fin 35) : str i = t.getD i 0 := window_eq_string hwindow (by omega)
    have hlast : str 34 = 0 := (hchar 34).trans (List.getD_eq_default _ _ hlen.le)
    rw [hexvalid_iff, hchar 0, hchar 1, hlast]
    simp only [hchar, and_true]
    rfl
  refine ⟨fun hvalid => ?_, fun ⟨hlen, hchars⟩ => (hparts hlen).2 hchars⟩
  have hlen := length_eq_of_hexvalid hnul hwindow hvalid
  exact ⟨hlen, (hparts hlen).1 hvalid⟩

end Sys2Proof.Machine

/-! PROOF. What TOHEX and FROMHEX write (44_hex_codec.md rules R193, R196): the edge completes with the command's `Exec`, whose codec is inverse on valid
strings. -/

namespace Sys2Proof.Machine

/-- Settles O55: TOHEX completes with the 35 bytes of `hexenc`, whose digits are the base-16 digits of the value. -/
theorem tohexWritesTheString : Obligations.TohexWritesTheString := by
  refine ⟨decode_encode (.tohex false true), decode_encode (.tohex false false), fun h s => ⟨?_, ?_⟩⟩
  · obtain ⟨r, hr, ⟨hout, -⟩ | ⟨-, m, rfl, hwf, hbytes⟩⟩ := tohexResult_ok true s.aL
    · exact absurd hout (by decide)
    · refine ⟨m, exec_of_not_division (i := .tohex h true) rfl hr, hwf, hbytes 0, hbytes 1, hbytes 34, fun k hk => ?_⟩
      rw [hbytes ⟨2 + k, by omega⟩, hexenc_digit s.aL ⟨k, hk⟩, digit_toNat, nibbleAt_toNat s.aL hk]
  · exact exec_of_not_division (i := .tohex h false) rfl rfl

/-- FROMHEX completes with the value of a valid window, and else with the code that says what is wrong. -/
theorem exec_fromhex (hinP outP : Bool) (s : State) :
    exec (.fromhex hinP outP) s = .next (if hinP && outP then
      if hexvalid (fun i => Memory.get s.hinL i) then wrote 0 (hexdec fun i => Memory.get s.hinL i) 0 0b00 Memory.blank s
      else wrote 2 0 0 0b00 Memory.blank s
    else wrote 1 0 0 0b00 Memory.blank s) := by
  rw [exec_of_not_division (i := .fromhex hinP outP) rfl (fromhexResult_ok hinP outP s.hinL)]
  split_ifs <;> rfl

/-- Settles O56: an encoded window decodes to its value, and a valid window is the encoding of the value it decodes to. -/
theorem fromhexWritesTheDecodedValue : Obligations.FromhexWritesTheDecodedValue := by
  refine ⟨decode_encode (.fromhex true true), decode_encode (.fromhex false true), decode_encode (.fromhex true false),
    decode_encode (.fromhex false false), fun s => ⟨fun v hv => ?_, fun hvalid => ?_, fun hbad => ?_, fun h o habsent => ?_⟩⟩
  · have hstr : (fun i : Fin 35 => Memory.get s.hinL i) = hexenc v := funext hv
    simp [exec_fromhex, hstr, hexvalid_hexenc, hexdec_hexenc]
  · exact ⟨_, fun i => (congrFun (hexenc_hexdec hvalid) i).symm⟩
  · simp [exec_fromhex, hbad]
  · simp [exec_fromhex, habsent]

end Sys2Proof.Machine

/-! PROOF. Negation and absolute value (45_signed.md rules R210, R211, R223) and truncating division (rules R213, R222) against the integers. -/

namespace Sys2Proof.Machine

/-- Settles O27: the complement plus one is the negation of `BitVec`, and the absolute value is exact. -/
theorem negationAndAbsoluteValue : Obligations.NegationAndAbsoluteValue := by
  refine ⟨fun m => ⟨neg128_eq m, ?_⟩, by decide, by decide, uabs_toNat⟩
  rw [neg128_eq, sub128_eq]
  exact (BitVec.zero_sub m).symm

/-- Up to 2^127 the negation is 0 or reads as `-u(m)`, whose magnitude is `u(m)`. -/
theorem uabs_neg128_of_le {m : Value} (h : m.toNat ≤ 2 ^ 127) : uabs (neg128 m) = m := by
  apply BitVec.eq_of_toNat_eq
  rw [uabs_toNat, neg128_eq, BitVec.toInt_eq_toNat_cond, BitVec.toNat_neg]
  split_ifs <;> omega

theorem neg128_toNat_of_pos {m : Value} (h : 0 < m.toNat) : (neg128 m).toNat = 2 ^ 128 - m.toNat := by
  rw [neg128_eq, BitVec.toNat_neg]
  omega

theorem isNeg_eq_msb (v : Value) : isNeg v = v.msb := rfl

theorem isNeg_eq_false {v : Value} : isNeg v = false ↔ v.toNat < 2 ^ 127 := by
  rw [isNeg_eq_msb, BitVec.msb_eq_false_iff_two_mul_lt]
  omega

theorem uabs_of_not_neg {v : Value} (h : isNeg v = false) : uabs v = v := by
  rw [uabs, h]
  rfl

/-- Settles O36: above 2^127 the negation is below 2^127 and is its own absolute value, which is not `m`. -/
theorem signRoundTripUpTo2Pow127 : Obligations.SignRoundTripUpTo2Pow127 := by
  have above {m : Value} (h : 2 ^ 127 < m.toNat) :
      (neg128 m).toNat = 2 ^ 128 - m.toNat ∧ isNeg (neg128 m) = false := by
    have hneg := neg128_toNat_of_pos (Nat.zero_lt_of_lt h)
    exact ⟨hneg, isNeg_eq_false.2 (by omega)⟩
  refine ⟨fun m => ⟨fun hround => ?_, uabs_neg128_of_le⟩, fun m h => ?_⟩
  · by_contra hgt
    obtain ⟨hneg, hsign⟩ := above (Nat.not_le.1 hgt)
    rw [uabs_of_not_neg hsign] at hround
    rw [hround] at hneg
    omega
  · obtain ⟨hneg, hsign⟩ := above h
    exact ⟨hneg, by omega, by omega, hsign, uabs_of_not_neg hsign⟩

theorem ofInt_tdiv (a b : Value) : BitVec.ofInt 128 (a.toInt.tdiv b.toInt) = a.sdiv b := by
  rw [← BitVec.toInt_inj, BitVec.toInt_ofInt, BitVec.toInt_sdiv]

theorem ofInt_tmod (a b : Value) : BitVec.ofInt 128 (a.toInt.tmod b.toInt) = a.srem b := by
  rw [← BitVec.toInt_srem, BitVec.ofInt_toInt]

/-- Quotient and remainder give the dividend back, also where the quotient wraps: the integers' division holds mod 2^128. -/
theorem sdiv_mul_add_srem (a b : Value) : a.sdiv b * b + a.srem b = a := by
  calc a.sdiv b * b + a.srem b
      = BitVec.ofInt 128 (a.toInt.tdiv b.toInt * b.toInt + a.toInt.tmod b.toInt) := by
        rw [BitVec.ofInt_add, BitVec.ofInt_mul, ofInt_tdiv, ofInt_tmod, BitVec.ofInt_toInt]
    _ = a := by rw [Int.tdiv_mul_add_tmod, BitVec.ofInt_toInt]

/-- Only -2^127 divided by -1 has a quotient that does not fit. -/
theorem toInt_sdiv_of_fits {a b : Value} (h : ¬ (a.toInt = -2 ^ 127 ∧ b.toInt = -1)) :
    (a.sdiv b).toInt = a.toInt.tdiv b.toInt := by
  refine BitVec.toInt_sdiv_of_ne_or_ne a b (not_and_or.1 fun ⟨ha, hb⟩ => h ?_)
  rw [ha, hb]
  decide

/-- Settles O35: the sign wrapper is the signed division of `BitVec`, whose quotient and remainder are those of the integers. -/
theorem signedDivisionTruncates : Obligations.SignedDivisionTruncates := by
  intro a b hb
  have hne : b ≠ 0 := fun h => hb (by rw [h]; rfl)
  rw [sdiv_eq a hne]
  refine ⟨fun hfits => ?truncates, fun ⟨ha, hb⟩ => ?wraps, ?smaller, ?sign, ?identity⟩
  case truncates =>
    rw [BitVec.toInt_srem, toInt_sdiv_of_fits hfits, mul_comm]
    exact ⟨rfl, Int.tmod_def _ _⟩
  case wraps =>
    rw [← ofInt_tdiv, ← ofInt_tmod, ha, hb]
    decide
  case smaller =>
    rw [BitVec.toInt_srem, Int.natAbs_tmod]
    exact Nat.mod_lt _ (Int.natAbs_pos.2 hb)
  case sign =>
    rw [← BitVec.toInt_inj, BitVec.toInt_srem, Int.sign_tmod]
    split_ifs with hdvd
    · exact .inl (Int.tmod_eq_zero_of_dvd hdvd)
    · exact .inr rfl
  case identity =>
    rw [add128_eq, mul128_eq]
    exact sdiv_mul_add_srem a b

end Sys2Proof.Machine

/-! PROOF. What the single-edge signed commands write (45_signed.md rules R214 to R220): the edge completes with the command's `Exec`, whose limb operations
have a closed form. -/

namespace Sys2Proof.Machine

theorem uabs_eq_ofNat (v : Value) : uabs v = BitVec.ofNat 128 v.toInt.natAbs := by
  rw [← uabs_toNat, BitVec.ofNat_toNat, BitVec.setWidth_eq]

/-- Settles O57: the three commands complete with the operand, its negation and its absolute value. -/
theorem signedConstructorsWriteTheirPattern : Obligations.SignedConstructorsWriteTheirPattern := by
  refine ⟨decode_encode (.screate false false), decode_encode (.scrneg false false), decode_encode (.suabs false false),
    fun h o s => ⟨exec_of_not_division (i := .screate h o) rfl rfl, ?_, ?_⟩⟩
  · rw [exec_of_not_division (i := .scrneg h o) rfl rfl, scrnegResult, neg128_eq]
    rfl
  · rw [exec_of_not_division (i := .suabs h o) rfl rfl, suabsResult, uabs_eq_ofNat]
    rfl

/-- Settles O58: SCMP completes with the signed comparator's answer, which is the order of the integers. -/
theorem scmpWritesTheSignedOrder : Obligations.ScmpWritesTheSignedOrder := by
  refine ⟨decode_encode (.scmp false false), fun h o s => ?_⟩
  rw [exec_of_not_division (i := .scmp h o) rfl rfl]
  simp only [scmpResult, scmp_eq_compare, enc2_compare, BitVec.toInt_inj]
  rfl

theorem add128_eq_ofInt (a b : Value) : add128 a b = BitVec.ofInt 128 (a.toInt + b.toInt) := by
  rw [add128_eq, BitVec.ofInt_add, BitVec.ofInt_toInt, BitVec.ofInt_toInt]

theorem sub128_eq_ofInt (a b : Value) : sub128 a b = BitVec.ofInt 128 (a.toInt - b.toInt) := by
  rw [sub128_eq, Int.sub_eq_add_neg, BitVec.ofInt_add, BitVec.ofInt_neg, BitVec.ofInt_toInt, BitVec.ofInt_toInt,
    BitVec.sub_eq_add_neg]

theorem mul128_eq_ofInt (a b : Value) : mul128 a b = BitVec.ofInt 128 (a.toInt * b.toInt) := by
  rw [mul128_eq, BitVec.ofInt_mul, BitVec.ofInt_toInt, BitVec.ofInt_toInt]

/-- Settles O59: reduction mod 2^128 turns the integers' operations into those of the limbs, which the unsigned twins share. -/
theorem signedArithmeticWraps : Obligations.SignedArithmeticWraps := by
  refine ⟨decode_encode (.sadd false false), decode_encode (.ssub false false), decode_encode (.smul false false),
    fun h o s => ⟨?sadd, ?ssub, ?smul, rfl, rfl, rfl⟩⟩
  case sadd => rw [← add128_eq_ofInt]; exact exec_of_not_division (i := .sadd h o) rfl rfl
  case ssub => rw [← sub128_eq_ofInt]; exact exec_of_not_division (i := .ssub h o) rfl rfl
  case smul => rw [← mul128_eq_ofInt]; exact exec_of_not_division (i := .smul h o) rfl rfl

end Sys2Proof.Machine

/-! PROOF. SDIV at its first edge and to its end (45_signed.md rules R213, R221, R222, 42_unsigned_divide.md rules R154, R155). -/

namespace Sys2Proof.Machine

theorem sdiv_zero (a : Value) : sdiv a 0 = (0, 0) := by
  have habs : uabs 0 = 0 := by decide
  rw [sdiv, habs, udiv_zero]
  simp [divSigned, neg128_eq]

/-- The quotient SDIV writes. -/
theorem sdivResult_q (v w : Value) :
    (sdivResult v w).q = if w = 0 then 0 else BitVec.ofInt 128 (v.toInt.tdiv w.toInt) := by
  split_ifs with hw
  · rw [hw, sdivResult, sdiv_zero]; rfl
  · rw [sdivResult, sdiv_eq v hw, ofInt_tdiv]; rfl

/-- Settles O46: the first edge completes with the truncating division, the magnitudes being those of the signed operands. -/
theorem sdivCompletesAtOnceInCases1To3 : Obligations.SdivCompletesAtOnceInCases1To3 := by
  refine ⟨decode_encode (.sdiv false false), fun h o s hrun => ?_⟩
  have hexec (hspecial : uabs s.bL = 0 ∨ (uabs s.aL).toNat ≤ (uabs s.bL).toNat) : exec (.sdiv h o) s =
      .next (wrote 0 (sdivResult s.aL s.bL).q (sdivResult s.aL s.bL).r 0b00 Memory.blank s) :=
    exec_division_of_special (i := .sdiv h o) rfl hrun hspecial
  rw [uabs_toNat, uabs_toNat, sdivResult_q, sdivResult_r] at hexec
  refine ⟨fun hzero => ?_, fun hne hle => ?_⟩
  · rw [hexec (.inl (by rw [hzero]; decide)), if_pos hzero, if_pos hzero]
  · rw [hexec (.inr hle), if_neg hne, if_neg hne]

/-- Settles O50: SDIV completes after its latency with its `Exec`, which is the truncating division. -/
theorem sdivRunsToQuotientAndRemainder : Obligations.SdivRunsToQuotientAndRemainder := by
  refine ⟨decode_encode (.sdiv false false), fun s h o hbusy hrun hdec hno => ?_⟩
  have hres : commandFn s.cmdL s.aL s.bL s.amtL s.hinL = .ok (sdivResult s.aL s.bL) := commandFn_of_decode hdec ..
  obtain ⟨t, ht, htbusy, htdone, -, hregs, -⟩ := (completesAfter_latency hres hbusy hrun hno).completion
  refine ⟨t, ht, htbusy, htdone, ?_⟩
  rw [hregs, ← sdivResult_q, ← sdivResult_r]
  rfl

end Sys2Proof.Machine

/-! PROOF. No edge stops the block (60_exceptions.md rule R240): reset, acceptance and an idle edge give the next state themselves, and the command in progress
either takes an edge of the division engine or completes, `Exec` being total. -/

namespace Sys2Proof.Machine

theorem runCommand_has_next (s : State) : ∃ t, runCommand s = .next t := by
  by_cases hdiv : ∃ n d qn rn, divisionLatched s n d qn rn
  · obtain ⟨n, d, qn, rn, hlatched⟩ := hdiv
    exact ⟨_, runCommand_division hlatched⟩
  · obtain ⟨r, hres⟩ := commandFn_ok s.cmdL s.aL s.bL s.amtL s.hinL
    exact ⟨_, runCommand_of_not_division (by simpa using hdiv) hres⟩

/-- Settles O12, by the four kinds of edge: reset, accept, the command in progress, and the idle edge. -/
theorem everyEdgeHasANextState : Obligations.EveryEdgeHasANextState := by
  intro s
  obtain ⟨-, heq⟩ | ⟨-, -, -, heq⟩ | ⟨-, -, heq⟩ | ⟨-, -, -, heq⟩ := clockEdge_cases s <;> rw [step, heq]
  · exact ⟨_, rfl⟩
  · exact ⟨_, rfl⟩
  · exact runCommand_has_next _
  · exact ⟨_, rfl⟩

end Sys2Proof.Machine

/-! PROOF. The cause of each status (60_exceptions.md rules R242 to R246): the status an arm of `Exec` gives is a function of the command and its operands, and a
legal word shows its command by `OP` and the two presence bits. -/

namespace Sys2Proof.Machine

/-- The status the arm of `Exec` for a legal command gives, its checks in the order of 40_execution.md rule R110. -/
def statusOf (i : Instr) (a : Value) (amt : Amount) (hin : Memory) : Status :=
  match i with
  | .ushl _ _ | .ushr _ _ => if amtOk amt then .ok else .errRange
  | .lastset _ _ => if a = 0 then .errZero else .ok
  | .tohex _ outP => if outP then .ok else .errNull
  | .fromhex hinP outP =>
    if hinP && outP then if hexvalid (fun i => Memory.get hin i) then .ok else .errFormat else .errNull
  | _ => .ok

/-- `statusOf` is the status of `Exec`. -/
theorem commandResult_status {i : Instr} {a b : Value} {amt : Amount} {hin : Memory} {r : Results}
    (h : commandResult i a b amt hin = .ok r) : r.st = statusOf i a amt hin := by
  cases i
  case tohex hinP outP =>
    obtain ⟨r', hr, ⟨rfl, rfl⟩ | ⟨rfl, m, rfl, -⟩⟩ := tohexResult_ok outP a
    all_goals obtain rfl := Except.ok.inj (h.symm.trans hr); rfl
  case fromhex hinP outP =>
    obtain rfl := Except.ok.inj (h.symm.trans (fromhexResult_ok hinP outP hin))
    simp only [statusOf]
    split_ifs <;> rfl
  case ushl => obtain rfl := Except.ok.inj h; exact apply_ite Results.st ..
  case ushr => obtain rfl := Except.ok.inj h; exact apply_ite Results.st ..
  case lastset => obtain rfl := Except.ok.inj h; exact apply_ite Results.st ..
  all_goals obtain rfl := Except.ok.inj h; rfl

theorem amtOk_eq_false {amt : Amount} : amtOk amt = false ↔ amt.toInt < 0 ∨ 127 < amt.toInt := by
  rw [← Bool.not_eq_true, amtOk_eq_true]
  omega

section
variable (i : Instr) (a : Value) (amt : Amount) (hin : Memory)

/-- No arm raises `ERR_ILLEGAL`: an illegal word has no arm. -/
theorem statusOf_ne_errIllegal : statusOf i a amt hin ≠ .errIllegal := by
  cases i
  all_goals simp [statusOf, ite_eq_iff]

/-- TOHEX looks for its output, FROMHEX for its input and its output (60_exceptions.md rule R243). -/
theorem statusOf_eq_errNull : statusOf i a amt hin = .errNull ↔
    ((rawOfInstr i).op.toNat = 0x0A ∧ (rawOfInstr i).outP = false) ∨
      ((rawOfInstr i).op.toNat = 0x0B ∧ ((rawOfInstr i).hinP = false ∨ (rawOfInstr i).outP = false)) := by
  cases i
  case fromhex hinP outP => cases hinP <;> cases outP <;> simp [statusOf, rawOfInstr, ite_eq_iff]
  all_goals simp [statusOf, rawOfInstr, ite_eq_iff]

/-- FROMHEX reads its window once both presence bits are set (60_exceptions.md rule R244). -/
theorem statusOf_eq_errFormat : statusOf i a amt hin = .errFormat ↔
    (rawOfInstr i).op.toNat = 0x0B ∧ (rawOfInstr i).hinP = true ∧ (rawOfInstr i).outP = true ∧
      hexvalid (fun i => Memory.get hin i) = false := by
  cases i
  all_goals simp [statusOf, rawOfInstr, ite_eq_iff, and_assoc]

/-- The two shifts look at the amount (60_exceptions.md rule R245). -/
theorem statusOf_eq_errRange : statusOf i a amt hin = .errRange ↔
    ((rawOfInstr i).op.toNat = 0x06 ∨ (rawOfInstr i).op.toNat = 0x07) ∧ (amt.toInt < 0 ∨ 127 < amt.toInt) := by
  rw [← amtOk_eq_false]
  cases i
  all_goals simp [statusOf, rawOfInstr, ite_eq_iff]

/-- LASTSET looks at its operand (60_exceptions.md rule R246). -/
theorem statusOf_eq_errZero : statusOf i a amt hin = .errZero ↔ (rawOfInstr i).op.toNat = 0x09 ∧ a = 0 := by
  cases i
  all_goals simp [statusOf, rawOfInstr, ite_eq_iff]

end

/-- Settles O21: an illegal word raises its own status and no other; a legal word has the bits of its command, whose arm gives `statusOf`. -/
theorem eachStatusHasExactlyItsCause : Obligations.EachStatusHasExactlyItsCause := by
  intro w a b amt hin r h
  obtain ⟨-, -, hfailed⟩ := commandFn_shape h
  by_cases hill : illegalWord w
  · obtain ⟨e, he⟩ := decode_error_of_illegal hill
    obtain rfl := Except.ok.inj (h.symm.trans (commandFn_of_illegal he a b amt hin))
    have hnot {p : Prop} {st : Status} (hne : Status.errIllegal ≠ st) :
        (failed .errIllegal).st = st ↔ ¬ illegalWord w ∧ p :=
      iff_of_false hne fun hp => hp.1 hill
    exact ⟨iff_of_true rfl hill, hnot (by decide), hnot (by decide), hnot (by decide), hnot (by decide), hfailed, by decide⟩
  · obtain ⟨i, hi⟩ := decode_ok_iff_legal.2 hill
    have hst : r.st = statusOf i a amt hin := commandResult_status ((commandFn_of_decode hi a b amt hin).symm.trans h)
    have hraw : rawOfWord w = rawOfInstr i := decode_eq_ok_iff.1 hi
    have hop : w.toNat % 256 = (rawOfInstr i).op.toNat := by rw [← hraw, rawOfWord_op_toNat]
    have hhinP : w.getLsbD 8 = (rawOfInstr i).hinP := congrArg RawCommand.hinP hraw
    have houtP : w.getLsbD 9 = (rawOfInstr i).outP := congrArg RawCommand.outP hraw
    simp only [and_iff_right hill, hst, hop, hhinP, houtP]
    exact ⟨iff_of_false (statusOf_ne_errIllegal i a amt hin) hill, statusOf_eq_errNull .., statusOf_eq_errFormat ..,
      statusOf_eq_errRange .., statusOf_eq_errZero .., hst ▸ hfailed, by decide⟩

end Sys2Proof.Machine

/-! PROOF. Reset (70_reset_and_hazards.md rules R270, R271, R273): a reset edge comes before everything else, and what it leaves has the invariant. -/

namespace Sys2Proof.Machine

/-- A reset edge looks at no register and at no other pin. -/
theorem step_reset {s : State} (hrst : (sample s).rst = true) : step s = .next (resetEdge (advanceInputs s)) := by
  obtain ⟨-, h⟩ | ⟨h, -⟩ | ⟨h, -⟩ | ⟨h, -⟩ := clockEdge_cases s
  · exact h
  all_goals simp [hrst] at h

/-- Settles O6: the reset edge, with its registers written out. -/
theorem resetEdgeClearsEveryRegister : Obligations.ResetEdgeClearsEveryRegister :=
  fun _ => step_reset

/-- Settles O16: the reset state is what a reset edge leaves, no pins to come. -/
theorem resetStateHasTheInvariant : Obligations.ResetStateHasTheInvariant :=
  inv_resetEdge State.reset

end Sys2Proof.Machine

/-! PROOF. Only a completing edge and a reset edge write the result registers (70_reset_and_hazards.md rule R276): the setup and the iterations of a division
write the engine alone. -/

namespace Sys2Proof.Machine

theorem divEdge_keeps_results_or_completes (n d : Value) (qn rn : Bool) (s : State) :
    resultRegs (divEdge n d qn rn s) = resultRegs s ∨
      ((divEdge n d qn rn s).busy = false ∧ (divEdge n d qn rn s).done = true) := by
  obtain ⟨-, -, h⟩ | ⟨-, -, h⟩ | ⟨-, -, h⟩ | ⟨-, -, h⟩ := divEdge_cases n d qn rn s <;> rw [h]
  · exact .inr ⟨rfl, rfl⟩
  · exact .inl rfl
  · exact .inr ⟨rfl, rfl⟩
  · exact .inl rfl

theorem runCommand_keeps_results_or_completes {s t : State} (h : runCommand s = .next t) :
    resultRegs t = resultRegs s ∨ (t.busy = false ∧ t.done = true) := by
  by_cases hdiv : ∃ n d qn rn, divisionLatched s n d qn rn
  · obtain ⟨n, d, qn, rn, hlatched⟩ := hdiv
    obtain rfl := Host.Outcome.next.inj ((runCommand_division hlatched).symm.trans h)
    exact divEdge_keeps_results_or_completes n d qn rn s
  · obtain ⟨r, hres⟩ := commandFn_ok s.cmdL s.aL s.bL s.amtL s.hinL
    obtain rfl := Host.Outcome.next.inj ((runCommand_of_not_division (by simpa using hdiv) hres).symm.trans h)
    exact .inr ⟨rfl, rfl⟩

/-- Settles O13, by the four kinds of edge: reset, accept, the command in progress, and the idle edge. -/
theorem resultsChangeOnlyAtCompletionOrReset : Obligations.ResultsChangeOnlyAtCompletionOrReset := by
  intro s t ht
  obtain ⟨hrst, -⟩ | ⟨-, -, -, heq⟩ | ⟨-, hbusy, heq⟩ | ⟨-, -, -, heq⟩ := clockEdge_cases s
  · exact .inr (.inl hrst)
  · obtain rfl := Host.Outcome.next.inj (heq.symm.trans ht)
    exact .inl rfl
  · obtain hkept | hcompletes := runCommand_keeps_results_or_completes (heq.symm.trans ht)
    · exact .inl hkept
    · exact .inr (.inr ⟨hbusy, hcompletes⟩)
  · obtain rfl := Host.Outcome.next.inj (heq.symm.trans ht)
    exact .inl rfl

end Sys2Proof.Machine

/-! PROOF. The latency table (70_reset_and_hazards.md rules R277, R278, 42_unsigned_divide.md rule R155): the latency by the command a word decodes to, and that
of a division in closed form. -/

namespace Sys2Proof.Machine

/-- Cases 1 to 3 of 42_unsigned_divide.md rule R150. -/
theorem divSpecial_eq_true {n d : Value} : divSpecial n d = true ↔ d.toNat = 0 ∨ n.toNat ≤ d.toNat := by
  rw [← Bool.not_eq_false, divSpecial_eq_false, BitVec.toNat_ne, not_and_or, not_not, Nat.not_lt]
  rfl

theorem divLatency_eq (n d : Value) :
    divLatency n d = if d.toNat = 0 ∨ n.toNat ≤ d.toNat then 1 else n.toNat.log2 - d.toNat.log2 + 2 := by
  simp only [divLatency, divSpecial_eq_true]
  split_ifs with hspecial
  · rfl
  · obtain ⟨hd, hlt⟩ := not_or.1 hspecial
    have hn : n.toNat ≠ 0 := by omega
    rw [divShift, lastset_eq_log2 (BitVec.toNat_ne.2 hn), lastset_eq_log2 (BitVec.toNat_ne.2 hd)]

/-- A division takes its setup edge and, in case 4, 1 to 128 iterations. -/
theorem divLatency_bounds (n d : Value) : 1 ≤ divLatency n d ∧ divLatency n d ≤ 129 := by
  unfold divLatency
  split_ifs with hspecial
  · omega
  · have hle := divShift_le (Bool.eq_false_iff.2 hspecial)
    omega

theorem latency_of_illegal {w : CmdWord} (h : illegalWord w) (a b : Value) : latency w a b = 1 := by
  obtain ⟨e, he⟩ := decode_error_of_illegal h
  simp only [latency, he]

theorem latency_encode_of_not_division {i : Instr} {a b : Value} (h : divOperands i a b = none) :
    latency (encode i) a b = 1 := by
  simp only [latency, decode_encode, h]

theorem latency_encode_of_division {i : Instr} {a b n d : Value} {qn rn : Bool}
    (h : divOperands i a b = some (n, d, qn, rn)) : latency (encode i) a b = divLatency n d := by
  simp only [latency, decode_encode, h]

theorem latency_bounds (w : CmdWord) (a b : Value) : 1 ≤ latency w a b ∧ latency w a b ≤ 129 := by
  by_cases hill : illegalWord w
  · rw [latency_of_illegal hill]; decide
  · obtain ⟨i, hdec⟩ := decode_ok_iff_legal.2 hill
    rw [← encode_of_decode hdec]
    cases hops : divOperands i a b with
    | none => rw [latency_encode_of_not_division hops]; decide
    | some ops => rw [latency_encode_of_division hops]; exact divLatency_bounds _ _

/-- Settles O20: an illegal word and a command that is no division take one edge, a division its closed form, and MAX128 by 1 the full distance of 127. -/
theorem latencyTable : Obligations.LatencyTable := by
  refine ⟨fun w a b hill => latency_of_illegal hill a b, fun i a b => latency_encode_of_not_division, ?division,
    latency_bounds, ?longest⟩
  case division => exact fun i a b n d qn rn hops => (latency_encode_of_division hops).trans (divLatency_eq n d)
  case longest =>
    calc latency (encode (.udiv false false)) max128 1
        = divLatency max128 1 := latency_encode_of_division rfl
      _ = 129 := by rw [divLatency_eq]; decide

end Sys2Proof.Machine
